-- ==== Sys2Proof/Word.lean ====
section
/-! DEFINITION. The words of the CHIP-8 CORE: bytes, 16-bit words, register and key indices. -/

namespace Sys2Proof

/-- A byte, bits 7..0 (00_scope.md section 6): a general register, a timer, one memory location. -/
abbrev Byte := BitVec 8

/-- A 16-bit value, bits 15..0: the index register, the program counter, a stack slot, an instruction word. -/
abbrev Word := BitVec 16

/-- The index of one of the sixteen general registers; every 4-bit index is valid (10_state.md R10). -/
abbrev Reg := Fin 16

/-- The index of one of the sixteen keys (10_state.md R20, 60_exceptions.md R168). -/
abbrev KeyIdx := Fin 16

/-- `VF`, the register that doubles as the flag output (10_state.md R11). -/
abbrev Reg.flag : Reg := 15

end Sys2Proof
end

