-- ==== Sys2Proof/Config.lean ====
section
/-! DEFINITION. What is fixed for the life of the machine (00_scope.md R2 and the parameter table of its section 4), and the one
free value, the random byte. -/

namespace Sys2Proof.Config

/-- `MEM_SIZE`: addresses 0x000..0xFFF (20_memory.md R40). -/
abbrev memSize : Nat := 4096

/-- `PROG_BASE`: the image and the first instruction stand here (10_state.md R25). -/
abbrev progBase : Nat := 0x200

/-- `PROG_MAX`: the longest image `RESET` accepts, 4096 - 0x200 (70_reset_and_hazards.md R181). -/
abbrev progMax : Nat := 3584

/-- `W`, the columns of the display (10_state.md R19). DESIGN CHOICE: the default of the spec's parameter, decision D9, log 6, unsafe. -/
abbrev W : Nat := 64

/-- `H`, the rows of the display (10_state.md R19). DESIGN CHOICE: the default of the spec's parameter, decision D9, log 6, unsafe. -/
abbrev H : Nat := 32

/-- The parameter `SHIFT_SRC` of 42_alu.md R108, R110: which register the two shifts read. -/
inductive ShiftSrc where
  | x  -- the old V[x]
  | y  -- the old V[y]
  deriving DecidableEq, Repr

/-- `SHIFT_SRC`. DESIGN CHOICE: the default of the spec's parameter, decision D16, log 5, unsafe. -/
def shiftSrc : ShiftSrc := .x

/-- The 80 glyph bytes at 0x000..0x04F, glyph `d` at `5·d` (20_memory.md R48).
DESIGN CHOICE: the spec's own configuration table, decision D23, log 7, unsafe. -/
def glyphTable : List Byte :=
  [0xF0, 0x90, 0x90, 0x90, 0xF0] ++  -- 0
  [0x20, 0x60, 0x20, 0x20, 0x70] ++  -- 1
  [0xF0, 0x10, 0xF0, 0x80, 0xF0] ++  -- 2
  [0xF0, 0x10, 0xF0, 0x10, 0xF0] ++  -- 3
  [0x90, 0x90, 0xF0, 0x10, 0x10] ++  -- 4
  [0xF0, 0x80, 0xF0, 0x10, 0xF0] ++  -- 5
  [0xF0, 0x80, 0xF0, 0x90, 0xF0] ++  -- 6
  [0xF0, 0x10, 0x20, 0x40, 0x40] ++  -- 7
  [0xF0, 0x90, 0xF0, 0x90, 0xF0] ++  -- 8
  [0xF0, 0x90, 0xF0, 0x10, 0xF0] ++  -- 9
  [0xF0, 0x90, 0xF0, 0x90, 0x90] ++  -- A
  [0xE0, 0x90, 0xE0, 0x90, 0xE0] ++  -- B
  [0xF0, 0x80, 0x80, 0x80, 0xF0] ++  -- C
  [0xE0, 0x90, 0x90, 0x90, 0xE0] ++  -- D
  [0xF0, 0x80, 0xF0, 0x80, 0xF0] ++  -- E
  [0xF0, 0x80, 0xF0, 0x80, 0x80]     -- F

/-- FREE VALUE: the byte `rnd` that the `k`-th execution of random-and receives (10_state.md R23, 42_alu.md R112: "a free input
under no law"). No body, so nothing can be proved of a value of it; log 1. -/
opaque rndByte : Nat → Byte

end Sys2Proof.Config
end

