-- ==== Sys2Proof/Machine/State.lean ====
section
/-! DEFINITION. The state of the CORE, the twelve rows of 10_state.md section 1 (R24) and the model's own counter of random bytes,
and the state after reset (R25). -/

namespace Sys2Proof.Machine

/-- The five fault causes (60_exceptions.md R150). -/
inductive FaultCode where
  | decodeFault
  | stackOverflow
  | stackUnderflow
  | addressFault
  | keyIndexFault
  deriving DecidableEq, Repr

/-- The numeric codes (60_exceptions.md R150). -/
def FaultCode.code : FaultCode → Nat
  | .decodeFault => 1
  | .stackOverflow => 2
  | .stackUnderflow => 3
  | .addressFault => 4
  | .keyIndexFault => 5

/-- The triple `(code, info, pc)` of the fault latch (10_state.md R22): `info` the opcode, the offending address or the key index, and
`pc` the address of the instruction that faulted. -/
structure FaultRecord where
  code : FaultCode
  info : Word
  pc : Word
  deriving DecidableEq, Repr

/-- `await`, the suspension latch: exactly two shapes (10_state.md R21). -/
inductive Await where
  | notWaiting
  | waiting (r : Reg)
  deriving DecidableEq, Repr

/-- Host-level faults: none. A fault of the CORE is a NEXT state whose fault latch is set (60_exceptions.md R151, R152), so no step
ends in `Host.Outcome.fault` and nobody raises a `Fault` (log 3, safe). -/
inductive Fault
  deriving DecidableEq, Repr

/-- Host-level refusals. No instruction's meaning answers one. -/
inductive Refusal where
  /-- Raised by an arm of `exec` whose instruction has no meaning yet; at present by none. Safe: the machine stops. -/
  | notModelled (mnemonic : String)
  /-- Raised by the event `RESET(image)` for an image of more than 3584 bytes, with its length: "refused: it produces no machine
  state" (70_reset_and_hazards.md R181). Safe: there is no run after it. -/
  | imageTooLong (length : Nat)
  deriving DecidableEq, Repr

/-- The display grid, `H` rows of `W` booleans: `disp[y][x]` is the pixel in row `y`, column `x` (10_state.md R19). -/
abbrev Display := Vector (Vector Bool Config.W) Config.H

/-- The contents of memory: the bytes that differ from what reset leaves, by rising address (`Memory.wf`, `Memory.background`; log 10). -/
abbrev Memory := List Host.Cell

structure State where
  /-- `V[0]`..`V[15]` (10_state.md R10, R11). -/
  v : Vector Byte 16
  /-- `I`, the index register (R12). -/
  i : Word
  /-- `pc`, the address of the next instruction (R13). -/
  pc : Word
  /-- `sp`, how many return addresses the stack holds, 0..16 (R15). -/
  sp : Fin 17
  /-- `stack[0]`..`stack[15]` (R14). -/
  stack : Vector Word 16
  /-- `DT`, the delay timer (R16). -/
  dt : Byte
  /-- `ST`, the sound timer (R17). -/
  st : Byte
  /-- `mem` (R18). -/
  mem : Memory
  /-- `disp` (R19). -/
  disp : Display
  /-- `key[0]`..`key[15]` (R20). -/
  key : Vector Bool 16
  /-- `await` (R21). -/
  await : Await
  /-- `fault` (R22). -/
  fault : Option FaultRecord
  /-- THE MODEL'S OWN: how many random bytes have been drawn, the argument of `Config.rndByte` (R23; log 1). -/
  rndDraws : Nat
  deriving DecidableEq, Repr

/-- A display with every pixel off. -/
def Display.blank : Display := Vector.replicate Config.H (Vector.replicate Config.W false)

/-- After `RESET` of the empty image (10_state.md R25): the glyph table is what unlisted memory reads as, so nothing is listed.
`rndDraws` is the model's own (DESIGN CHOICE 0, log 1). -/
def State.reset : State where
  v := Vector.replicate 16 0
  i := 0
  pc := 0x200
  sp := 0
  stack := Vector.replicate 16 0
  dt := 0
  st := 0
  mem := []
  disp := Display.blank
  key := Vector.replicate 16 false
  await := .notWaiting
  fault := none
  rndDraws := 0

end Sys2Proof.Machine
end

