-- ==== Sys2Proof/Machine/Ops.lean ====
section
/-! DEFINITION. The named operations over memory, registers, the program counter and the stack, and `raise`, taking a fault. -/

namespace Sys2Proof.Machine

/-- What a step or a meaning answers. -/
abbrev Result := Host.Outcome State Fault Refusal

/-! ### Memory -/

/-- What an unlisted address reads as: the contents reset leaves, the glyph table at 0x000..0x04F and 0 above it
(10_state.md R25, 20_memory.md R48). -/
def Memory.background (a : Nat) : Byte := Config.glyphTable.getD a 0

/-- The byte at an address. -/
def Memory.get : Memory → Nat → Byte
  | [], a => Memory.background a
  | (b, v) :: rest, a => if b = a then v else Memory.get rest a

/-- A cell in front of a memory, unless it says what an unlisted address says. -/
def Memory.cons (a : Nat) (v : Byte) (rest : Memory) : Memory :=
  if v = Memory.background a then rest else (a, v) :: rest

/-- A byte put into a memory that does not list its address, at its place in the order. -/
def Memory.insert : Memory → Nat → Byte → Memory
  | [], a, v => Memory.cons a v []
  | (b, u) :: rest, a, v =>
    if a < b then Memory.cons a v ((b, u) :: rest)
    else (b, u) :: Memory.insert rest a v

/-- Memory with one byte changed, in canonical form. -/
def Memory.set (m : Memory) (a : Nat) (v : Byte) : Memory := Memory.insert (m.filter fun c => c.1 != a) a v

/-- The canonical form: addresses in 0x000..0xFFF, strictly rising, and no cell equal to what an unlisted address reads as. -/
def Memory.wf : Memory → Bool
  | [] => true
  | (a, v) :: rest =>
    decide (a < Config.memSize) && v != Memory.background a && rest.all (fun c => decide (a < c.1)) && Memory.wf rest

/-- `MemRead(addr, 1)`: the byte, or the offending address of an `AddressFault` (20_memory.md R42). -/
def memRead (m : Memory) (a : Nat) : Except Nat Byte :=
  if a < Config.memSize then .ok (m.get a) else .error a

/-- `MemWrite(addr, 1, v)`: memory with the byte stored, or the offending address of an `AddressFault` (20_memory.md R43). -/
def memWrite (m : Memory) (a : Nat) (v : Byte) : Except Nat Memory :=
  if a < Config.memSize then .ok (m.set a v) else .error a

/-- `n` bytes at ascending addresses from `a`, or the lowest offending address (20_memory.md R53). -/
def memReadN (m : Memory) (a : Nat) : Nat → Except Nat (List Byte)
  | 0 => .ok []
  | n + 1 =>
    match memRead m a with
    | .error e => .error e
    | .ok b =>
      match memReadN m (a + 1) n with
      | .error e => .error e
      | .ok bs => .ok (b :: bs)

/-- Bytes stored at ascending addresses from `a`, or the lowest offending address and then no memory at all, so nothing is stored
(20_memory.md R53). -/
def memWriteN (m : Memory) (a : Nat) : List Byte → Except Nat Memory
  | [] => .ok m
  | b :: bs =>
    match memWrite m a b with
    | .error e => .error e
    | .ok m' => memWriteN m' (a + 1) bs

/-! ### Registers and program counter -/

/-- `V[r]`. -/
def State.readV (s : State) (r : Reg) : Byte := s.v[r.val]

/-- `V[r] <- b`. -/
def State.writeV (s : State) (r : Reg) (b : Byte) : State := { s with v := s.v.set r.val b }

/-- `pc <- t`. -/
def State.goto (s : State) (t : Word) : State := { s with pc := t }

/-- `pc <- next`, that is `(pc + 2) mod 2^16` (40_step_cycle.md R83). -/
def State.advance (s : State) : State := s.goto (s.pc + 2)

/-- A conditional skip: `(pc + 4) mod 2^16` if the condition holds, else `(pc + 2) mod 2^16` (40_step_cycle.md R83). -/
def State.skipIf (s : State) (c : Bool) : State := s.goto (if c then s.pc + 4 else s.pc + 2)

/-! ### The return stack (10_state.md R14, R15) -/

/-- Push: store at `stack[sp]`, then increment `sp`; `none` when the stack is full. -/
def State.push (s : State) (t : Word) : Option State :=
  if h : s.sp.val < 16 then
    some { s with stack := s.stack.set s.sp.val t, sp := ⟨s.sp.val + 1, Nat.succ_lt_succ h⟩ }
  else none

/-- Pop: decrement `sp`, then load from `stack[sp]`; `none` when the stack is empty. The slot keeps its value. -/
def State.pop (s : State) : Option (Word × State) :=
  if _h : 0 < s.sp.val then
    some (s.stack[s.sp.val - 1]'(by omega),
      { s with sp := ⟨s.sp.val - 1, by omega⟩ })
  else none

/-! ### Taking a fault (60_exceptions.md R151)

There is no return from a fault (60_exceptions.md R155): no handler, no saved context. The only exit from the halted state is the event
`RESET` (Machine/Events.lean). -/

/-- `raise F(info)`: nothing changes but the fault latch, which records the code, `info` and the `pc` of the faulting instruction. -/
def State.raise (s : State) (c : FaultCode) (info : Word) : Result :=
  .next { s with fault := some ⟨c, info, s.pc⟩ }

/-- Go on with an access that succeeded; an offending address raises `AddressFault(addr)`. The address always fits the latch's 16
bits (60_exceptions.md R150; DEDUCED, log 14, safe). -/
def State.onAccess {α : Type} (s : State) (r : Except Nat α) (k : α → Result) : Result :=
  match r with
  | .ok a => k a
  | .error e => s.raise .addressFault (BitVec.ofNat 16 e)

end Sys2Proof.Machine
end

