-- ==== Sys2Proof/Machine/Flags.lean ====
section
/-! DEFINITION. The values of the one flag, `VF` (10_state.md R11): carry, not-borrow and the evicted bit. The collision flag is in
Machine/Raster.lean. -/

namespace Sys2Proof.Machine

/-- A flag as the register holds it: 1 or 0. -/
def flagByte (b : Bool) : Byte := if b then 1 else 0

/-- Add-with-carry: the unsigned sum exceeds 255 (42_alu.md R106). -/
def carryOut (a b : Byte) : Bool := decide (255 < a.toNat + b.toNat)

/-- Not-borrow of `a - b`: `a ≥ b` (42_alu.md R107, R109). -/
def noBorrow (a b : Byte) : Bool := decide (b.toNat ≤ a.toNat)

/-- Shift-right: bit 0 of the operand (42_alu.md R108). -/
def evictedLow (a : Byte) : Bool := a.getLsbD 0

/-- Shift-left: bit 7 of the operand (42_alu.md R110). -/
def evictedHigh (a : Byte) : Bool := a.getLsbD 7

/-- The two writes of a flag-writing instruction: the result to `V[x]`, then the flag to `V[15]` (42_alu.md R111; log 8). -/
def State.writeWithFlag (s : State) (x : Reg) (result : Byte) (flag : Bool) : State :=
  (s.writeV x result).writeV Reg.flag (flagByte flag)

end Sys2Proof.Machine
end

