-- ==== Sys2Proof/Machine/Operands.lean ====
section
/-! DEFINITION. The operand forms: zero-extended immediates, the register the shifts read, the bytes at `I` plus ascending offsets, the
register range `V[0]..V[x]`, the decimal digits of a byte. -/

namespace Sys2Proof.Machine

/-- `zext_16(nnn)` (30_encoding.md R63). -/
def zextAddr (nnn : BitVec 12) : Word := nnn.setWidth 16

/-- `zext_16(b)` (43_index_memory.md R121). -/
def zextByte (b : Byte) : Word := b.setWidth 16

/-- The value a shift reads: the old `V[x]` under `SHIFT_SRC = X`, the old `V[y]` under `SHIFT_SRC = Y` (42_alu.md R108, R110). -/
def shiftOperand (src : Config.ShiftSrc) (x y : Reg) (s : State) : Byte :=
  match src with
  | .x => s.readV x
  | .y => s.readV y

/-- The address of the first byte an instruction moves: `I`, as a mathematical integer (43_index_memory.md, Addressing). -/
def State.indexAddr (s : State) : Nat := s.i.toNat

/-- `V[0], ..., V[x]`, in order (43_index_memory.md R124). -/
def State.regsUpTo (s : State) (x : Reg) : List Byte := s.v.toList.take (x.val + 1)

/-- The registers with the first ones replaced, in order, by the bytes read (43_index_memory.md R125). -/
def loadRegs (v : Vector Byte 16) (bytes : List Byte) : Vector Byte 16 :=
  Vector.ofFn fun j : Fin 16 => bytes.getD j.val v[j.val]

/-- The hundreds, tens and units of a byte (43_index_memory.md R123). -/
def bcdDigits (b : Byte) : List Byte :=
  [BitVec.ofNat 8 (b.toNat / 100), BitVec.ofNat 8 (b.toNat / 10 % 10), BitVec.ofNat 8 (b.toNat % 10)]

end Sys2Proof.Machine
end

