-- ==== Sys2Proof/Machine/Alu.lean ====
section
/-! DEFINITION. Register arithmetic and logic (42_alu.md). Operands are read from `s`, before any write (40_step_cycle.md R85). -/

namespace Sys2Proof.Machine

/-- `V[x] <- b; pc <- next`: the shape of every instruction here that writes no flag. -/
def State.setV (s : State) (x : Reg) (b : Byte) : Result := .next (s.writeV x b).advance

/-- `V[x] <- result; V[15] <- flag; pc <- next`: the shape of the five flag-writing instructions (42_alu.md R111). -/
def State.setVFlag (s : State) (x : Reg) (result : Byte) (flag : Bool) : Result :=
  .next (s.writeWithFlag x result flag).advance

/-- load-immediate (42_alu.md R100). -/
def execLdImm (x : Reg) (kk : Byte) (s : State) : Result := s.setV x kk

/-- add-immediate: modulo 256, no flag (42_alu.md R101). -/
def execAddImm (x : Reg) (kk : Byte) (s : State) : Result := s.setV x (s.readV x + kk)

/-- assign (42_alu.md R102). -/
def execLdReg (x y : Reg) (s : State) : Result := s.setV x (s.readV y)

/-- or (42_alu.md R103). -/
def execOrReg (x y : Reg) (s : State) : Result := s.setV x (s.readV x ||| s.readV y)

/-- and (42_alu.md R104). -/
def execAndReg (x y : Reg) (s : State) : Result := s.setV x (s.readV x &&& s.readV y)

/-- xor (42_alu.md R105). -/
def execXorReg (x y : Reg) (s : State) : Result := s.setV x (s.readV x ^^^ s.readV y)

/-- add-with-carry: the carry is an output only (42_alu.md R106). -/
def execAddReg (x y : Reg) (s : State) : Result :=
  s.setVFlag x (s.readV x + s.readV y) (carryOut (s.readV x) (s.readV y))

/-- subtract-with-borrow: the borrow is an output only (42_alu.md R107). -/
def execSubReg (x y : Reg) (s : State) : Result :=
  s.setVFlag x (s.readV x - s.readV y) (noBorrow (s.readV x) (s.readV y))

/-- shift-right under a given `SHIFT_SRC` (42_alu.md R108). -/
def shiftRight (src : Config.ShiftSrc) (x y : Reg) (s : State) : Result :=
  s.setVFlag x (shiftOperand src x y s >>> 1) (evictedLow (shiftOperand src x y s))

/-- shift-right (42_alu.md R108). -/
def execShr (x y : Reg) (s : State) : Result := shiftRight Config.shiftSrc x y s

/-- reverse-subtract: the destination is still `V[x]` (42_alu.md R109). -/
def execSubn (x y : Reg) (s : State) : Result :=
  s.setVFlag x (s.readV y - s.readV x) (noBorrow (s.readV y) (s.readV x))

/-- shift-left under a given `SHIFT_SRC` (42_alu.md R110). -/
def shiftLeft (src : Config.ShiftSrc) (x y : Reg) (s : State) : Result :=
  s.setVFlag x (shiftOperand src x y s <<< 1) (evictedHigh (shiftOperand src x y s))

/-- shift-left (42_alu.md R110). -/
def execShl (x y : Reg) (s : State) : Result := shiftLeft Config.shiftSrc x y s

/-- random-and with the byte `rnd` of the `STEP` event (42_alu.md R112). -/
def randomAnd (x : Reg) (kk rnd : Byte) (s : State) : Result := s.setV x (rnd &&& kk)

/-- random-and with the next free byte; the model's counter moves on (42_alu.md R112; log 1). -/
def execRnd (x : Reg) (kk : Byte) (s : State) : Result :=
  randomAnd x kk (Config.rndByte s.rndDraws) { s with rndDraws := s.rndDraws + 1 }

end Sys2Proof.Machine
end

