-- ==== Sys2Proof/WellFormed.lean ====
section
/-! DEFINITION. Which 16-bit words are instructions, said twice and independently of the decoder: by 30_encoding.md R65's table of
the illegal words, one check per line of it, and by the mask and match of every row of spec/opcode_table.json.
A term of `Instr` needs no check: every register index, `kk`, `nnn` and `n` its fields can hold is encodable (R10, R62, R63). -/

namespace Sys2Proof

/-- `op[15:12]`, the family (30_encoding.md R62). -/
def family (w : Word) : BitVec 4 := w.extractLsb' 12 4

/-- `op[3:0]`, the sub-key of families 5, 8, 9 (30_encoding.md R62, R64). -/
def lowNibble (w : Word) : BitVec 4 := w.extractLsb' 0 4

/-- `op[7:0]`, the sub-key of families E, F (30_encoding.md R62, R64). -/
def lowByte (w : Word) : Byte := w.extractLsb' 0 8

/-- Family 0: every `0nnn` except `00E0` and `00EE` is illegal (R65). -/
def exactOk (w : Word) : Bool := family w != 0x0 || w == 0x00E0 || w == 0x00EE

/-- Family 5: `5xyN` with `N ≠ 0` is illegal (R65). -/
def skipEqOk (w : Word) : Bool := family w != 0x5 || lowNibble w == 0

/-- Family 8: `8xyN` with `N` in 8, 9, A, B, C, D, F is illegal (R65). -/
def aluOk (w : Word) : Bool :=
  family w != 0x8 || !([0x8, 0x9, 0xA, 0xB, 0xC, 0xD, 0xF] : List (BitVec 4)).contains (lowNibble w)

/-- Family 9: `9xyN` with `N ≠ 0` is illegal (R65). -/
def skipNeOk (w : Word) : Bool := family w != 0x9 || lowNibble w == 0

/-- Family E: `Exkk` with `kk` not in 9E, A1 is illegal (R65). -/
def keySkipOk (w : Word) : Bool := family w != 0xE || ([0x9E, 0xA1] : List Byte).contains (lowByte w)

/-- Family F: `Fxkk` with `kk` not in 07, 0A, 15, 18, 1E, 29, 33, 55, 65 is illegal (R65). -/
def miscOk (w : Word) : Bool :=
  family w != 0xF || ([0x07, 0x0A, 0x15, 0x18, 0x1E, 0x29, 0x33, 0x55, 0x65] : List Byte).contains (lowByte w)

/-- A word that R65's table does not list as illegal; families 1, 2, 3, 4, 6, 7, A, B, C, D have no illegal word. -/
def wellFormedWord (w : Word) : Bool :=
  exactOk w && skipEqOk w && aluOk w && skipNeOk w && keySkipOk w && miscOk w

/-- A row of spec/opcode_table.json: the bits it fixes (`mask`) and their values (`pattern`). -/
structure OpcodeRow where
  mask : Word
  pattern : Word
  deriving DecidableEq, Repr

/-- The row of the table that stands for an instruction (spec/opcode_table.json, 30_encoding.md R66). -/
def Instr.row : Instr → OpcodeRow
  | .cls        => ⟨0xFFFF, 0x00E0⟩
  | .ret        => ⟨0xFFFF, 0x00EE⟩
  | .jp _       => ⟨0xF000, 0x1000⟩
  | .call _     => ⟨0xF000, 0x2000⟩
  | .seImm _ _  => ⟨0xF000, 0x3000⟩
  | .sneImm _ _ => ⟨0xF000, 0x4000⟩
  | .seReg _ _  => ⟨0xF00F, 0x5000⟩
  | .ldImm _ _  => ⟨0xF000, 0x6000⟩
  | .addImm _ _ => ⟨0xF000, 0x7000⟩
  | .ldReg _ _  => ⟨0xF00F, 0x8000⟩
  | .orReg _ _  => ⟨0xF00F, 0x8001⟩
  | .andReg _ _ => ⟨0xF00F, 0x8002⟩
  | .xorReg _ _ => ⟨0xF00F, 0x8003⟩
  | .addReg _ _ => ⟨0xF00F, 0x8004⟩
  | .subReg _ _ => ⟨0xF00F, 0x8005⟩
  | .shr _ _    => ⟨0xF00F, 0x8006⟩
  | .subn _ _   => ⟨0xF00F, 0x8007⟩
  | .shl _ _    => ⟨0xF00F, 0x800E⟩
  | .sneReg _ _ => ⟨0xF00F, 0x9000⟩
  | .ldI _      => ⟨0xF000, 0xA000⟩
  | .jpV0 _     => ⟨0xF000, 0xB000⟩
  | .rnd _ _    => ⟨0xF000, 0xC000⟩
  | .drw _ _ _  => ⟨0xF000, 0xD000⟩
  | .skp _      => ⟨0xF0FF, 0xE09E⟩
  | .sknp _     => ⟨0xF0FF, 0xE0A1⟩
  | .ldVxDT _   => ⟨0xF0FF, 0xF007⟩
  | .ldVxK _    => ⟨0xF0FF, 0xF00A⟩
  | .ldDTVx _   => ⟨0xF0FF, 0xF015⟩
  | .ldSTVx _   => ⟨0xF0FF, 0xF018⟩
  | .addI _     => ⟨0xF0FF, 0xF01E⟩
  | .ldF _      => ⟨0xF0FF, 0xF029⟩
  | .ldB _      => ⟨0xF0FF, 0xF033⟩
  | .dump _     => ⟨0xF0FF, 0xF055⟩
  | .load _     => ⟨0xF0FF, 0xF065⟩

/-- The 34 rows, in the table's order. -/
def opcodeRows : List OpcodeRow :=
  [⟨0xFFFF, 0x00E0⟩, ⟨0xFFFF, 0x00EE⟩, ⟨0xF000, 0x1000⟩, ⟨0xF000, 0x2000⟩, ⟨0xF000, 0x3000⟩, ⟨0xF000, 0x4000⟩,
   ⟨0xF00F, 0x5000⟩, ⟨0xF000, 0x6000⟩, ⟨0xF000, 0x7000⟩] ++
  [⟨0xF00F, 0x8000⟩, ⟨0xF00F, 0x8001⟩, ⟨0xF00F, 0x8002⟩, ⟨0xF00F, 0x8003⟩, ⟨0xF00F, 0x8004⟩, ⟨0xF00F, 0x8005⟩,
   ⟨0xF00F, 0x8006⟩, ⟨0xF00F, 0x8007⟩, ⟨0xF00F, 0x800E⟩, ⟨0xF00F, 0x9000⟩] ++
  [⟨0xF000, 0xA000⟩, ⟨0xF000, 0xB000⟩, ⟨0xF000, 0xC000⟩, ⟨0xF000, 0xD000⟩, ⟨0xF0FF, 0xE09E⟩, ⟨0xF0FF, 0xE0A1⟩] ++
  [⟨0xF0FF, 0xF007⟩, ⟨0xF0FF, 0xF00A⟩, ⟨0xF0FF, 0xF015⟩, ⟨0xF0FF, 0xF018⟩, ⟨0xF0FF, 0xF01E⟩, ⟨0xF0FF, 0xF029⟩,
   ⟨0xF0FF, 0xF033⟩, ⟨0xF0FF, 0xF055⟩, ⟨0xF0FF, 0xF065⟩]

/-- Whether a word has the bits a row fixes. -/
def OpcodeRow.fits (r : OpcodeRow) (w : Word) : Bool := w &&& r.mask == r.pattern

end Sys2Proof
end

