-- ==== Sys2Proof/Decode.lean ====
section
/-! DEFINITION. The decoder, total on any word and any bytes (30_encoding.md R62, R64), and after it the encoder, written from the
formats of R61 and the encoding column of R66. The opcode numbers are the spec's decision D1 (DESIGN CHOICE, log 9, unsafe). -/

namespace Sys2Proof

/-- Why bytes give no instruction. -/
inductive DecodeError where
  /-- `Decode(op) = Unknown`: an illegal word, with the raw opcode (30_encoding.md R65, R67). -/
  | unknown (op : Word)
  /-- Fewer than the two bytes every instruction has (30_encoding.md R60). -/
  | truncated
  deriving DecidableEq, Repr

/-! ### Fields (30_encoding.md R62) -/

/-- `f = op[15:12]`, the family. -/
def fieldF (w : Word) : BitVec 4 := w.extractLsb' 12 4

/-- `x = op[11:8]`. -/
def fieldX (w : Word) : Reg := (w.extractLsb' 8 4).toFin

/-- `y = op[7:4]`. -/
def fieldY (w : Word) : Reg := (w.extractLsb' 4 4).toFin

/-- `n = op[3:0]`. -/
def fieldN (w : Word) : BitVec 4 := w.extractLsb' 0 4

/-- `kk = op[7:0]`. -/
def fieldKK (w : Word) : Byte := w.extractLsb' 0 8

/-- `nnn = op[11:0]`. -/
def fieldNNN (w : Word) : BitVec 12 := w.extractLsb' 0 12

/-! ### `Decode(op)` (30_encoding.md R64): the family first, then the sub-key its family uses -/

/-- Family 0: the whole word is the key. -/
def decodeExact (w : Word) : Except DecodeError Instr :=
  if w = 0x00E0 then .ok .cls
  else if w = 0x00EE then .ok .ret
  else .error (.unknown w)

/-- Family 8, the register ALU: the low nibble is the sub-key. -/
def decodeAlu (w : Word) : Except DecodeError Instr :=
  match (fieldN w).toNat with
  | 0x0 => .ok (.ldReg (fieldX w) (fieldY w))
  | 0x1 => .ok (.orReg (fieldX w) (fieldY w))
  | 0x2 => .ok (.andReg (fieldX w) (fieldY w))
  | 0x3 => .ok (.xorReg (fieldX w) (fieldY w))
  | 0x4 => .ok (.addReg (fieldX w) (fieldY w))
  | 0x5 => .ok (.subReg (fieldX w) (fieldY w))
  | 0x6 => .ok (.shr (fieldX w) (fieldY w))
  | 0x7 => .ok (.subn (fieldX w) (fieldY w))
  | 0xE => .ok (.shl (fieldX w) (fieldY w))
  | _ => .error (.unknown w)

/-- Family E, the key skips: the second byte is the sub-key. -/
def decodeKeySkip (w : Word) : Except DecodeError Instr :=
  if fieldKK w = 0x9E then .ok (.skp (fieldX w))
  else if fieldKK w = 0xA1 then .ok (.sknp (fieldX w))
  else .error (.unknown w)

/-- Family F, timers, key, index and memory: the second byte is the sub-key. -/
def decodeMisc (w : Word) : Except DecodeError Instr :=
  if fieldKK w = 0x07 then .ok (.ldVxDT (fieldX w))
  else if fieldKK w = 0x0A then .ok (.ldVxK (fieldX w))
  else if fieldKK w = 0x15 then .ok (.ldDTVx (fieldX w))
  else if fieldKK w = 0x18 then .ok (.ldSTVx (fieldX w))
  else if fieldKK w = 0x1E then .ok (.addI (fieldX w))
  else if fieldKK w = 0x29 then .ok (.ldF (fieldX w))
  else if fieldKK w = 0x33 then .ok (.ldB (fieldX w))
  else if fieldKK w = 0x55 then .ok (.dump (fieldX w))
  else if fieldKK w = 0x65 then .ok (.load (fieldX w))
  else .error (.unknown w)

/-- `Decode(op)`: one of the 34 instructions, or `Unknown` with the word (30_encoding.md R64, 40_step_cycle.md R82). The low nibble
of families 5 and 9 must be 0. -/
def decode (w : Word) : Except DecodeError Instr :=
  match (fieldF w).toNat with
  | 0x0 => decodeExact w
  | 0x1 => .ok (.jp (fieldNNN w))
  | 0x2 => .ok (.call (fieldNNN w))
  | 0x3 => .ok (.seImm (fieldX w) (fieldKK w))
  | 0x4 => .ok (.sneImm (fieldX w) (fieldKK w))
  | 0x5 => if fieldN w = 0 then .ok (.seReg (fieldX w) (fieldY w)) else .error (.unknown w)
  | 0x6 => .ok (.ldImm (fieldX w) (fieldKK w))
  | 0x7 => .ok (.addImm (fieldX w) (fieldKK w))
  | 0x8 => decodeAlu w
  | 0x9 => if fieldN w = 0 then .ok (.sneReg (fieldX w) (fieldY w)) else .error (.unknown w)
  | 0xA => .ok (.ldI (fieldNNN w))
  | 0xB => .ok (.jpV0 (fieldNNN w))
  | 0xC => .ok (.rnd (fieldX w) (fieldKK w))
  | 0xD => .ok (.drw (fieldX w) (fieldY w) (fieldN w))
  | 0xE => decodeKeySkip w
  | _ => decodeMisc w

/-- The first byte holds bits 15..8, the second bits 7..0 (20_memory.md R44). -/
def wordOfBytes (b0 b1 : Byte) : Word := b0 ++ b1

/-- Decoding from bytes: the instruction and the bytes after it. -/
def decodeBytes : List Byte → Except DecodeError (Instr × List Byte)
  | b0 :: b1 :: rest =>
    match decode (wordOfBytes b0 b1) with
    | .ok i => .ok (i, rest)
    | .error e => .error e
  | _ => .error .truncated

/-! ### The encoder (30_encoding.md R61, R66) -/

/-- Format A: `f ‖ nnn`. -/
def wordA (f : BitVec 4) (nnn : BitVec 12) : Word := f ++ nnn

/-- Formats I and X: `f ‖ x ‖ kk`, where X has a fixed `kk`. -/
def wordI (f : BitVec 4) (x : Reg) (kk : Byte) : Word := f ++ BitVec.ofFin (w := 4) x ++ kk

/-- Formats R and D: `f ‖ x ‖ y ‖ n`, where R has a fixed `n`. -/
def wordR (f : BitVec 4) (x y : Reg) (n : BitVec 4) : Word :=
  f ++ BitVec.ofFin (w := 4) x ++ BitVec.ofFin (w := 4) y ++ n

/-- The word of an instruction (30_encoding.md R66). -/
def encode : Instr → Word
  | .cls         => 0x00E0
  | .ret         => 0x00EE
  | .jp nnn      => wordA 0x1 nnn
  | .call nnn    => wordA 0x2 nnn
  | .seImm x kk  => wordI 0x3 x kk
  | .sneImm x kk => wordI 0x4 x kk
  | .seReg x y   => wordR 0x5 x y 0x0
  | .ldImm x kk  => wordI 0x6 x kk
  | .addImm x kk => wordI 0x7 x kk
  | .ldReg x y   => wordR 0x8 x y 0x0
  | .orReg x y   => wordR 0x8 x y 0x1
  | .andReg x y  => wordR 0x8 x y 0x2
  | .xorReg x y  => wordR 0x8 x y 0x3
  | .addReg x y  => wordR 0x8 x y 0x4
  | .subReg x y  => wordR 0x8 x y 0x5
  | .shr x y     => wordR 0x8 x y 0x6
  | .subn x y    => wordR 0x8 x y 0x7
  | .shl x y     => wordR 0x8 x y 0xE
  | .sneReg x y  => wordR 0x9 x y 0x0
  | .ldI nnn     => wordA 0xA nnn
  | .jpV0 nnn    => wordA 0xB nnn
  | .rnd x kk    => wordI 0xC x kk
  | .drw x y n   => wordR 0xD x y n
  | .skp x       => wordI 0xE x 0x9E
  | .sknp x      => wordI 0xE x 0xA1
  | .ldVxDT x    => wordI 0xF x 0x07
  | .ldVxK x     => wordI 0xF x 0x0A
  | .ldDTVx x    => wordI 0xF x 0x15
  | .ldSTVx x    => wordI 0xF x 0x18
  | .addI x      => wordI 0xF x 0x1E
  | .ldF x       => wordI 0xF x 0x29
  | .ldB x       => wordI 0xF x 0x33
  | .dump x      => wordI 0xF x 0x55
  | .load x      => wordI 0xF x 0x65

/-! ### The host's numbering of an instruction's bits -/

/-- The two bytes of an instruction whose bits are `w`, bit 0 the least significant bit of its one 16-bit word, as memory holds
them: the more significant byte first (20_memory.md R44). Bits above `nbits` are 0. -/
def tableBytes (nbits w : Nat) : List Byte :=
  let op := w % 2 ^ nbits % 2 ^ 16
  [BitVec.ofNat 8 (op / 256), BitVec.ofNat 8 op]

/-- What the decoder reads from an instruction whose bits are `w`. -/
def decodeTableWord (nbits w : Nat) : Option Instr :=
  match decodeBytes (tableBytes nbits w) with
  | .ok (i, _) => some i
  | .error _ => none

end Sys2Proof
end

