-- ==== Sys2Proof/Machine/Flow.lean ====
section
/-! DEFINITION. Control transfer (41_flow.md): return, jump, call, jump-with-offset, the four value skips. -/

namespace Sys2Proof.Machine

/-- return (41_flow.md R90). -/
def execRet (s : State) : Result :=
  match s.pop with
  | none => s.raise .stackUnderflow (encode .ret)
  | some (t, s') => .next (s'.goto t)

/-- jump (41_flow.md R91). -/
def execJp (nnn : BitVec 12) (s : State) : Result := .next (s.goto (zextAddr nnn))

/-- call (41_flow.md R92). The `op` a `StackOverflow` records is the one word that decodes to this call (DEDUCED, log 15, safe). -/
def execCall (nnn : BitVec 12) (s : State) : Result :=
  match s.push (s.pc + 2) with
  | none => s.raise .stackOverflow (encode (.call nnn))
  | some s' => .next (s'.goto (zextAddr nnn))

/-- jump-with-offset, always by `V[0]` (41_flow.md R93). -/
def execJpV0 (nnn : BitVec 12) (s : State) : Result := .next (s.goto (zextAddr nnn + zextByte (s.readV 0)))

/-- skip-if-equal-immediate (41_flow.md R94). -/
def execSeImm (x : Reg) (kk : Byte) (s : State) : Result := .next (s.skipIf (s.readV x == kk))

/-- skip-if-not-equal-immediate (41_flow.md R95). -/
def execSneImm (x : Reg) (kk : Byte) (s : State) : Result := .next (s.skipIf (s.readV x != kk))

/-- skip-if-registers-equal (41_flow.md R96). -/
def execSeReg (x y : Reg) (s : State) : Result := .next (s.skipIf (s.readV x == s.readV y))

/-- skip-if-registers-not-equal (41_flow.md R97). -/
def execSneReg (x y : Reg) (s : State) : Result := .next (s.skipIf (s.readV x != s.readV y))

end Sys2Proof.Machine
end

