-- ==== Sys2Proof/Machine/IndexMemory.lean ====
section
/-! DEFINITION. Index register and memory transfer (43_index_memory.md). `I` is unchanged by the three transfers; every address is
checked before anything is written (20_memory.md R53). -/

namespace Sys2Proof.Machine

/-- `I <- t; pc <- next`. -/
def State.setIndex (s : State) (t : Word) : Result := .next { s with i := t }.advance

/-- Store bytes at `I`, `I + 1`, ...; `pc <- next`. -/
def State.storeAtIndex (s : State) (bytes : List Byte) : Result :=
  s.onAccess (memWriteN s.mem s.indexAddr bytes) fun m => .next { s with mem := m }.advance

/-- set-index (43_index_memory.md R120). -/
def execLdI (nnn : BitVec 12) (s : State) : Result := s.setIndex (zextAddr nnn)

/-- add-to-index: modulo 2^16, no flag (43_index_memory.md R121). -/
def execAddI (x : Reg) (s : State) : Result := s.setIndex (s.i + zextByte (s.readV x))

/-- load-glyph-address: five times the whole byte, not masked (43_index_memory.md R122). -/
def execLdF (x : Reg) (s : State) : Result := s.setIndex (zextByte (s.readV x) * 5)

/-- store-BCD (43_index_memory.md R123). -/
def execLdB (x : Reg) (s : State) : Result := s.storeAtIndex (bcdDigits (s.readV x))

/-- register-dump (43_index_memory.md R124). -/
def execDump (x : Reg) (s : State) : Result := s.storeAtIndex (s.regsUpTo x)

/-- register-load (43_index_memory.md R125). -/
def execLoad (x : Reg) (s : State) : Result :=
  s.onAccess (memReadN s.mem s.indexAddr (x.val + 1)) fun bytes => .next { s with v := loadRegs s.v bytes }.advance

end Sys2Proof.Machine
end

