-- ==== Sys2Proof/Machine/KeysTimers.lean ====
section
/-! DEFINITION. Key and timer instructions (45_keys_timers.md). -/

namespace Sys2Proof.Machine

/-- A key skip: the index is the whole byte `V[x]`, and one above 15 raises `KeyIndexFault` (45_keys_timers.md R140, R141). -/
def State.skipOnKey (s : State) (x : Reg) (skipWhen : Bool) : Result :=
  if h : (s.readV x).toNat < 16 then .next (s.skipIf (s.key[(s.readV x).toNat] == skipWhen))
  else s.raise .keyIndexFault (zextByte (s.readV x))

/-- skip-if-key-pressed (45_keys_timers.md R140). -/
def execSkp (x : Reg) (s : State) : Result := s.skipOnKey x true

/-- skip-if-key-not-pressed (45_keys_timers.md R141). -/
def execSknp (x : Reg) (s : State) : Result := s.skipOnKey x false

/-- read-key: enters the suspension; `pc` advances in the same step and `V[x]` is written later, by `KEYDOWN` (45_keys_timers.md R142). -/
def execLdVxK (x : Reg) (s : State) : Result := .next { s with await := .waiting x }.advance

/-- load-from-delay-timer (45_keys_timers.md R143). -/
def execLdVxDT (x : Reg) (s : State) : Result := .next (s.writeV x s.dt).advance

/-- set-delay-timer (45_keys_timers.md R144). -/
def execLdDTVx (x : Reg) (s : State) : Result := .next { s with dt := s.readV x }.advance

/-- set-sound-timer (45_keys_timers.md R145). -/
def execLdSTVx (x : Reg) (s : State) : Result := .next { s with st := s.readV x }.advance

end Sys2Proof.Machine
end

