-- ==== Sys2Proof/Machine/Raster.lean ====
section
/-! DEFINITION. The display rasterizer (44_display.md): clear-screen and draw, an XOR-blit with wraparound and collision. -/

namespace Sys2Proof.Machine

/-- The pixel in column `x`, row `y`, both reduced: "screen_x = x mod width, screen_y = y mod height" (10_state.md R19). -/
def Display.get (d : Display) (x y : Nat) : Bool :=
  (d[y % Config.H]'(Nat.mod_lt _ (by decide)))[x % Config.W]'(Nat.mod_lt _ (by decide))

/-- The display with that pixel inverted. -/
def Display.flip (d : Display) (x y : Nat) : Display :=
  let row := d[y % Config.H]'(Nat.mod_lt _ (by decide))
  d.set (y % Config.H) (row.set (x % Config.W) (!d.get x y) (Nat.mod_lt _ (by decide))) (Nat.mod_lt _ (by decide))

/-- A blit under way: the display so far, and whether a pixel has gone from on to off. -/
structure Blit where
  disp : Display
  collision : Bool
  deriving DecidableEq, Repr

/-- One sprite bit: 0 leaves the pixel alone, 1 inverts it and notes a collision if it was on (44_display.md R131). -/
def blitPixel (x y : Nat) (bit : Bool) (b : Blit) : Blit :=
  if bit then ⟨b.disp.flip x y, b.collision || b.disp.get x y⟩ else b

/-- The bit of a sprite row in column `c`, bit 7 leftmost (44_display.md R131; log 13). -/
def spriteBit (row : Byte) (c : Nat) : Bool := row.getLsbD (7 - c)

/-- One sprite row, columns 0 to 7. -/
def blitRow (ox y : Nat) (row : Byte) (b : Blit) : Blit :=
  (List.range 8).foldl (fun b c => blitPixel (ox + c) y (spriteBit row c) b) b

/-- The sprite's rows, top first, from row `oy` downward. -/
def blitRows (ox oy : Nat) : List Byte → Blit → Blit
  | [], b => b
  | row :: rows, b => blitRows ox (oy + 1) rows (blitRow ox oy row b)

/-- Pixels and flag after a draw with the sprite bytes `rows` at the origin `(V[x], V[y])` (44_display.md R131). -/
def State.drawSprite (s : State) (x y : Reg) (rows : List Byte) : State :=
  let b := blitRows (s.readV x).toNat (s.readV y).toNat rows ⟨s.disp, false⟩
  { s with disp := b.disp }.writeV Reg.flag (flagByte b.collision)

/-- clear-screen (44_display.md R130). -/
def execCls (s : State) : Result := .next { s with disp := Display.blank }.advance

/-- draw (44_display.md R131). With `n = 0` no byte is read, so nothing can fault. -/
def execDrw (x y : Reg) (n : BitVec 4) (s : State) : Result :=
  s.onAccess (memReadN s.mem s.indexAddr n.toNat) fun rows => .next (s.drawSprite x y rows).advance

end Sys2Proof.Machine
end

