-- ==== Sys2Proof/Machine/Cycle.lean ====
section
/-! DEFINITION. The fetch-decode-execute cycle (40_step_cycle.md): what a `STEP` does around one instruction, and the result it
reports. -/

namespace Sys2Proof.Machine

/-- `Fetch(pc)`: two bytes, the first the more significant; both addresses are checked, the second without wrap
(40_step_cycle.md R81, 20_memory.md R44). -/
def fetchWord (m : Memory) (pc : Nat) : Except Nat Word :=
  match memRead m pc with
  | .error e => .error e
  | .ok b0 =>
    match memRead m (pc + 1) with
    | .error e => .error e
    | .ok b1 => .ok (wordOfBytes b0 b1)

/-- Decode and execute the word fetched; an illegal word raises `DecodeFault(op)` (40_step_cycle.md R80 steps 4 and 5). -/
def decodeAndExecute (execute : Instr → State → Result) (s : State) (op : Word) : Result :=
  match decode op with
  | .error _ => s.raise .decodeFault op
  | .ok i => execute i s

/-- `STEP` for a given way to execute an instruction (40_step_cycle.md R80, 60_exceptions.md R154): halted and suspended states stay
as they are; then fetch, decode, execute. -/
def cycle (execute : Instr → State → Result) (s : State) : Result :=
  match s.fault, s.await with
  | some _, _ => .next s
  | none, .waiting _ => .next s
  | none, .notWaiting =>
    s.onAccess (fetchWord s.mem s.pc.toNat) (decodeAndExecute execute s)

/-- `Execute(instr, rnd)` for the byte `rnd` the host supplies: random-and takes `rnd`, every other instruction ignores it
(42_alu.md R112). -/
def execWith (rnd : Byte) (i : Instr) (s : State) : Result :=
  match i with
  | .rnd x kk => randomAnd x kk rnd s
  | i => exec i s

/-- The instruction a `STEP` executes in this state, if it gets as far (40_step_cycle.md R80 steps 1 to 4). -/
def State.executing (s : State) : Option Instr :=
  match s.fault, s.await with
  | none, .notWaiting =>
    match fetchWord s.mem s.pc.toNat with
    | .error _ => none
    | .ok op =>
      match decode op with
      | .error _ => none
      | .ok i => some i
  | _, _ => none

/-- `display_changed` of a completed `STEP`: true exactly when the instruction executed is draw (40_step_cycle.md R84). -/
def State.displayChanged (s : State) : Bool :=
  match s.executing with
  | some (.drw _ _ _) => true
  | _ => false

/-- What a `STEP` returns to the host (00_scope.md R3): not stored, so not in State (log 2). -/
inductive StepResult where
  | ok (displayChanged : Bool)
  | fault (f : FaultRecord)
  deriving DecidableEq, Repr

/-- The result of the `STEP` that takes `s` to `t`: the latched fault if there is one after it, else `Ok(display_changed)`
(40_step_cycle.md R80, R84; 60_exceptions.md R151, R152). -/
def stepResult (s t : State) : StepResult :=
  match t.fault with
  | some f => .fault f
  | none => .ok s.displayChanged

/-- A state like `s` that is neither halted nor suspended and whose `pc` can be fetched from, with the bytes of one instruction where the
next fetch reads them. It stands for a program placed there from outside (log 11, log 16). -/
def State.placeInstr (s : State) (bytes : List Byte) : State :=
  let pc : Word := if s.pc.toNat + 1 < Config.memSize then s.pc else 0x200
  { s with
    fault := none
    await := .notWaiting
    pc := pc
    mem := (s.mem.set pc.toNat (bytes.getD 0 0)).set (pc.toNat + 1) (bytes.getD 1 0) }

end Sys2Proof.Machine
end

