-- ==== Sys2Proof/Machine/Step.lean ====
section
/-! DEFINITION. The step: the event `STEP` with the next free random byte (40_step_cycle.md R80), and the placing of an instruction
where it fetches. -/

namespace Sys2Proof.Machine

/-- `STEP`. `cycle` holds the order of the checks, `exec` the instructions. -/
def step (s : State) : Host.Outcome State Fault Refusal := cycle exec s

/-- `s` with the instruction whose bits are `w` stored where `step` fetches its next instruction (log 16). -/
def State.withFetchWord (s : State) (nbits w : Nat) : State := s.placeInstr (tableBytes nbits w)

end Sys2Proof.Machine
end

