-- ==== Sys2Proof/Machine/Events.lean ====
section
/-! DEFINITION. The five events by which the host changes the state (00_scope.md R3) and the three observations (R4). An event lands
between instructions, never inside one (R1). -/

namespace Sys2Proof.Machine

/-- A timer one tick later: floored at 0 (60_exceptions.md R156). -/
def countDown (t : Byte) : Byte := if t = 0 then 0 else t - 1

/-- `TICK` (60_exceptions.md R156). -/
def tick (s : State) : State := { s with dt := countDown s.dt, st := countDown s.st }

/-- `KEYDOWN(k)`: sets the key and, if the engine waits, writes `k` into the target register and ends the suspension
(60_exceptions.md R158). -/
def keydown (k : KeyIdx) (s : State) : State :=
  let s' := { s with key := s.key.set k.val true }
  match s.await with
  | .notWaiting => s'
  | .waiting r => { s'.writeV r (BitVec.ofNat 8 k.val) with await := .notWaiting }

/-- `KEYUP(k)` (60_exceptions.md R159). -/
def keyup (k : KeyIdx) (s : State) : State := { s with key := s.key.set k.val false }

/-- Bytes placed from address `a` upward. -/
def placeBytes (m : Memory) (a : Nat) : List Byte → Memory
  | [] => m
  | b :: bs => placeBytes (m.set a b) (a + 1) bs

/-- The state after `RESET(image)` of an image that fits (10_state.md R25, 70_reset_and_hazards.md R180). -/
def loaded (image : List Byte) : State :=
  { State.reset with mem := placeBytes [] Config.progBase image }

/-- `RESET(image)`: total re-initialisation in any engine condition, refused for an image over 3584 bytes (70_reset_and_hazards.md
R180 to R182). The model's own count of random bytes goes on, so that a reset does not replay them (DESIGN CHOICE, log 17). -/
def resetWith (image : List Byte) (s : State) : Result :=
  if image.length ≤ Config.progMax then .next { loaded image with rndDraws := s.rndDraws }
  else .refused (.imageTooLong image.length)

/-- `STEP(rnd)` with the byte the host supplies (40_step_cycle.md R80). -/
def stepWith (rnd : Byte) (s : State) : Result := cycle (execWith rnd) s

/-- The host's moves (00_scope.md R3, 60_exceptions.md R167). A key index outside 0..15 is no move (60_exceptions.md R168). -/
inductive Event where
  | reset (image : List Byte)
  | step (rnd : Byte)
  | tick
  | keydown (k : KeyIdx)
  | keyup (k : KeyIdx)
  deriving DecidableEq, Repr

/-- One event, in every engine condition (60_exceptions.md R163). -/
def handle (e : Event) (s : State) : Result :=
  match e with
  | .reset image => resetWith image s
  | .step rnd => stepWith rnd s
  | .tick => .next (tick s)
  | .keydown k => .next (keydown k s)
  | .keyup k => .next (keyup k s)

/-- Events one after another, in any order and ratio (00_scope.md R3, 70_reset_and_hazards.md R188). -/
def handleAll : List Event → State → Result
  | [], s => .next s
  | e :: es, s =>
    match handle e s with
    | .next t => handleAll es t
    | .fault f => .fault f
    | .refused r => .refused r

/-- What the host gets back from an event (00_scope.md R3): a result for a `STEP`, nothing for the others. -/
def eventResult (e : Event) (s : State) : Option StepResult :=
  match e with
  | .step rnd =>
    match stepWith rnd s with
    | .next t => some (stepResult s t)
    | .fault _ => none
    | .refused _ => none
  | .reset _ => none
  | .tick => none
  | .keydown _ => none
  | .keyup _ => none

/-- The display observation: `disp[y][x]` (60_exceptions.md R160). -/
def State.pixel (s : State) (x : Fin Config.W) (y : Fin Config.H) : Bool := s.disp.get x.val y.val

/-- The sound observation `ST > 0` (60_exceptions.md R161). -/
def State.soundActive (s : State) : Bool := decide (0 < s.st.toNat)

/-- The fault observation (00_scope.md R4). -/
def State.faultLatch (s : State) : Option FaultRecord := s.fault

end Sys2Proof.Machine
end

