-- ==== Sys2Proof/Safety.lean ====
section
/-! DEFINITION. The notions claims are stated in: halted, suspended, ready, stopped (70_reset_and_hazards.md R189), frames, the invariant
of every reachable state, and the sprite pixels of a draw. -/

namespace Sys2Proof.Machine

/-- Halted: a fault is latched (60_exceptions.md R152). -/
def State.Halted (s : State) : Prop := s.fault ≠ none

/-- Suspended on a key, to be written to register `r` (60_exceptions.md R162). -/
def State.SuspendedOn (s : State) (r : Reg) : Prop := s.await = .waiting r

/-- Neither halted nor suspended: a `STEP` goes on to fetch (40_step_cycle.md R80). -/
abbrev State.Ready (s : State) : Prop := s.fault = none ∧ s.await = .notWaiting

/-- The byte at an address, the model's read of one byte. -/
def State.byteAt (s : State) (a : Nat) : Byte := s.mem.get a

/-- The instruction word at an address, first byte most significant (20_memory.md R44). -/
def State.wordAt (s : State) (a : Nat) : Word := wordOfBytes (s.byteAt a) (s.byteAt (a + 1))

/-- A `STEP` in this state reaches step 5 of 40_step_cycle.md R80 with the instruction `i`: ready, both bytes of the instruction in
memory, and the word there decodes to `i`. -/
abbrev State.About (s : State) (i : Instr) : Prop :=
  s.Ready ∧ s.pc.toNat ≤ 0xFFE ∧ decode (s.wordAt s.pc.toNat) = .ok i

/-- "Stopped at `a`" (70_reset_and_hazards.md R189): a `JP a` at address `a ≤ 0xFFE`. -/
def State.StoppedAt (s : State) (a : BitVec 12) : Prop :=
  s.Ready ∧ s.pc = zextAddr a ∧ a.toNat ≤ 0xFFE ∧ s.wordAt a.toNat = (0x1#4 ++ a)

/-- A safe run of events: it ends in a state, not halted. -/
def SafeRun (es : List Event) (s : State) : Prop := ∃ t, handleAll es s = .next t ∧ ¬ t.Halted

/-- The pieces of state, for frames. -/
inductive Piece where
  | v | i | pc | sp | stack | dt | st | mem | disp | key | await | fault | rndDraws
  deriving DecidableEq, Repr

/-- `t` has everything `s` has but for the listed pieces; memory is compared byte by byte. -/
structure Frame (changed : List Piece) (s t : State) : Prop where
  v : .v ∉ changed → ∀ r, t.readV r = s.readV r
  i : .i ∉ changed → t.i = s.i
  pc : .pc ∉ changed → t.pc = s.pc
  sp : .sp ∉ changed → t.sp = s.sp
  stack : .stack ∉ changed → t.stack = s.stack
  dt : .dt ∉ changed → t.dt = s.dt
  st : .st ∉ changed → t.st = s.st
  mem : .mem ∉ changed → ∀ a, t.byteAt a = s.byteAt a
  disp : .disp ∉ changed → t.disp = s.disp
  key : .key ∉ changed → t.key = s.key
  await : .await ∉ changed → t.await = s.await
  fault : .fault ∉ changed → t.fault = s.fault
  rndDraws : .rndDraws ∉ changed → t.rndDraws = s.rndDraws

/-- The `pc` after an instruction that completes, the table of 40_step_cycle.md R83. -/
def successorPc (i : Instr) (s : State) : Word :=
  let skipWhen (c : Prop) [Decidable c] : Word := if c then s.pc + 4 else s.pc + 2
  match i with
  | .jp nnn => zextAddr nnn
  | .call nnn => zextAddr nnn
  | .jpV0 nnn => BitVec.ofNat 16 (nnn.toNat + (s.readV 0).toNat)
  | .ret => s.stack.toList.getD (s.sp.val - 1) 0
  | .seImm x kk => skipWhen (s.readV x = kk)
  | .sneImm x kk => skipWhen (s.readV x ≠ kk)
  | .seReg x y => skipWhen (s.readV x = s.readV y)
  | .sneReg x y => skipWhen (s.readV x ≠ s.readV y)
  | .skp x => skipWhen (s.key.toList[(s.readV x).toNat]? = some true)
  | .sknp x => skipWhen (s.key.toList[(s.readV x).toNat]? = some false)
  | _ => s.pc + 2

/-- The registers an instruction names as destinations, the flag aside (10_state.md R10, R11). -/
def namesAsDestination (i : Instr) (r : Reg) : Prop :=
  match i with
  | .ldImm x _ | .addImm x _ | .ldReg x _ | .orReg x _ | .andReg x _ | .xorReg x _ | .addReg x _ | .subReg x _ | .shr x _
  | .subn x _ | .shl x _ | .rnd x _ | .ldVxDT x => r = x
  | .load x => r ≤ x
  | _ => False

/-- The six instructions that write `VF` as a side effect (10_state.md R11). -/
def writesFlag : Instr → Bool
  | .addReg _ _ | .subReg _ _ | .shr _ _ | .subn _ _ | .shl _ _ | .drw _ _ _ => true
  | _ => false

/-- How many bytes at `I`, `I + 1`, ... an instruction reads or writes (20_memory.md R41). -/
def bytesAtI : Instr → Nat
  | .drw _ _ n => n.toNat
  | .ldB _ => 3
  | .dump x => x.val + 1
  | .load x => x.val + 1
  | _ => 0

/-- The address an `AddressFault` records, `max(first address, 0x1000)` (20_memory.md R53, 60_exceptions.md R150). -/
def lowestOffending (first : Word) : Word := if first.toNat ≤ 0xFFF then 0x1000 else first

/-- The instruction's word is `w`, and `w` decodes to it (30_encoding.md R66). -/
def Encodes (i : Instr) (w : Word) : Prop := encode i = w ∧ decode w = .ok i

/-- The sprite of a draw at `(ox, oy)` with the bytes at `a`, `a + 1`, ..., `a + n - 1` has a 1 on the pixel `(px, py)`
(44_display.md R131). -/
def SpriteOn (s : State) (ox oy a n : Nat) (px : Fin Config.W) (py : Fin Config.H) : Prop :=
  ∃ r < n, ∃ c < 8, (ox + c) % Config.W = px.val ∧ (oy + r) % Config.H = py.val ∧
    (s.byteAt (a + r)).getLsbD (7 - c) = true

/-- What the latch may hold (60_exceptions.md R150): `info` is an illegal word, a call's word, the word of return, an address above
0xFFF, or a key index above 15. -/
def FaultRecord.wf (f : FaultRecord) : Bool :=
  match f.code with
  | .decodeFault => !wellFormedWord f.info
  | .stackOverflow => family f.info == 0x2
  | .stackUnderflow => f.info == 0x00EE
  | .addressFault => decide (0x1000 ≤ f.info.toNat)
  | .keyIndexFault => decide (16 ≤ f.info.toNat ∧ f.info.toNat ≤ 255)

/-- The invariant of the machine, as a check: memory is canonical; `pc` is at most 0x10FE and every pushed return address at most
0x1000 (10_state.md R13); a latched fault is one of 60_exceptions.md R150, recorded at the present `pc` (R151), and the engine is then
not suspended (40_step_cycle.md R80). -/
def State.invariant (s : State) : Bool :=
  s.mem.wf && decide (s.pc.toNat ≤ 0x10FE) && s.stack.toList.all (fun t => decide (t.toNat ≤ 0x1000)) &&
    (match s.fault with
     | none => true
     | some f => f.wf && f.pc == s.pc && s.await == .notWaiting)

/-- The invariant holds. -/
abbrev State.Inv (s : State) : Prop := s.invariant = true

end Sys2Proof.Machine
end

