-- ==== Sys2Proof/Certificates/Slice0/Obligations.lean ====
section
/-! DEFINITION. The statements for the provers. Each says which rule of spec/ it formalises; OBLIGATIONS.json lists them. Where the spec
marks a rule's content as its own decision (92_eei_decisions.md D<n>), the docstring names the decision. -/

open Sys2Proof Sys2Proof.Machine

/-! ### Encoding (30_encoding.md) -/

/-- Decoding an encoded instruction gives it back, with every operand at every value (R61, R62, R64, R66; opcode numbers D1, log 9). -/
def Obligations.DecodeOfEncode : Prop := ∀ i : Instr, decode (encode i) = .ok i

/-- A word that decodes is the encoding of what it decodes to: each instruction has one word (R64, R66; D1, log 9). -/
def Obligations.EncodeOfDecode : Prop := ∀ (w : Word) (i : Instr), decode w = .ok i → encode i = w

/-- The illegal words are exactly those R65's table lists, and each is rejected with the raw opcode (R65, R67; D1, D5, log 9). -/
def Obligations.IllegalWordsAreUnknown : Prop :=
  ∀ w : Word, (wellFormedWord w = false → decode w = .error (.unknown w)) ∧ (wellFormedWord w = true → ∃ i, decode w = .ok i)

/-- The decoder agrees with the mask and pattern of every row of spec/opcode_table.json, both ways (R64, R66; D1, log 9). -/
def Obligations.DecoderFollowsOpcodeTable : Prop :=
  ∀ w : Word, (∀ i, decode w = .ok i → i.row.fits w = true) ∧
    (∀ r ∈ opcodeRows, r.fits w = true → ∃ i, decode w = .ok i ∧ i.row = r)

/-- Words written out by hand, one of each format, and illegal ones (95_test_vectors.md section 2.1). -/
def Obligations.SampleWordsDecode : Prop :=
  decode 0b0000000011100000 = .ok .cls ∧ decode 0b0001101010111100 = .ok (.jp 0xABC) ∧
  decode 0b0110101001111111 = .ok (.ldImm 0xA 0x7F) ∧ decode 0b1000101010110101 = .ok (.subReg 0xA 0xB) ∧
  decode 0b1101000100100101 = .ok (.drw 1 2 5) ∧ decode 0b1111001100110011 = .ok (.ldB 3) ∧
  decode 0b0000000000000000 = .error (.unknown 0) ∧ decode 0b0101101010110001 = .error (.unknown 0x5AB1)

/-! ### The cycle (40_step_cycle.md, 60_exceptions.md) -/

/-- A step runs the decoded instruction, and adds nothing around it (R80 step 5, R83); with the host's byte it runs the same instruction
with that byte (R112). -/
def Obligations.StepRunsDecodedInstruction : Prop :=
  ∀ (s : State) (i : Instr), s.About i → step s = exec i s ∧ ∀ rnd, stepWith rnd s = execWith rnd i s

/-- What a `STEP` does, in the fixed order of its checks, and what it returns: halted, suspended, fetch `AddressFault`, `DecodeFault`,
the instruction itself, which completes or leaves everything but the latch as it was (R80, R81; D11, D12, D13, D21, D35). -/
def Obligations.StepChecksInOrder : Prop :=
  ∀ (s : State) (rnd : Byte),
    (∀ f, s.fault = some f → stepWith rnd s = .next s ∧ step s = .next s ∧ stepResult s s = .fault f) ∧
    (∀ r, s.fault = none → s.await = .waiting r → stepWith rnd s = .next s ∧ step s = .next s ∧ stepResult s s = .ok false) ∧
    (s.Ready → 0xFFF ≤ s.pc.toNat →
      let t := { s with fault := some ⟨.addressFault, lowestOffending s.pc, s.pc⟩ }
      stepWith rnd s = .next t ∧ step s = .next t ∧ stepResult s t = .fault ⟨.addressFault, lowestOffending s.pc, s.pc⟩) ∧
    (s.Ready → s.pc.toNat ≤ 0xFFE → decode (s.wordAt s.pc.toNat) = .error (.unknown (s.wordAt s.pc.toNat)) →
      let t := { s with fault := some ⟨.decodeFault, s.wordAt s.pc.toNat, s.pc⟩ }
      stepWith rnd s = .next t ∧ step s = .next t ∧ stepResult s t = .fault ⟨.decodeFault, s.wordAt s.pc.toNat, s.pc⟩) ∧
    (∀ i, s.About i → stepWith rnd s = execWith rnd i s ∧ step s = exec i s ∧
      ∀ t, (stepWith rnd s = .next t ∨ step s = .next t) →
        (t.fault = none → stepResult s t = .ok (match i with | .drw _ _ _ => true | _ => false)) ∧
        (∀ f, t.fault = some f → t = { s with fault := some f } ∧ stepResult s t = .fault f))

/-- An illegal word at `pc` raises `DecodeFault(op)`: nothing changes but the latch, `pc` does not advance (R67; D4). -/
def Obligations.IllegalWordRaisesDecodeFault : Prop :=
  ∀ s : State, s.Ready → s.pc.toNat ≤ 0xFFE → wellFormedWord (s.wordAt s.pc.toNat) = false →
    step s = .next { s with fault := some ⟨.decodeFault, s.wordAt s.pc.toNat, s.pc⟩ }

/-- The result of a completed `STEP` is `Ok(true)` if the instruction executed was draw and `Ok(false)` otherwise (R84; D21). -/
def Obligations.DisplayChangedExactlyOnDraw : Prop :=
  ∀ s t : State, step s = .next t →
    (stepResult s t = .ok true ↔ t.fault = none ∧ ∃ x y n, s.About (.drw x y n)) ∧
    (stepResult s t = .ok false ↔ t.fault = none ∧ ¬ ∃ x y n, s.About (.drw x y n)) ∧
    (∀ f, stepResult s t = .fault f ↔ t.fault = some f)

/-- Faults are precise: a `STEP` that latches a fault changes nothing else, records its own `pc`, and returns the fault (R151; D11, D13). -/
def Obligations.FaultsArePrecise : Prop :=
  ∀ (s t : State) (f : FaultRecord), s.fault = none → (step s = .next t ∨ ∃ rnd, stepWith rnd s = .next t) → t.fault = some f →
    t = { s with fault := some f } ∧ f.pc = s.pc ∧ stepResult s t = .fault f

/-- The five fault causes, their codes, when each is raised and what it records: a `STEP` of a ready engine latches a fault exactly in
these cases (R150; D11, D14, D19). -/
def Obligations.FaultCauses : Prop :=
  (FaultCode.decodeFault.code = 1 ∧ FaultCode.stackOverflow.code = 2 ∧ FaultCode.stackUnderflow.code = 3 ∧
    FaultCode.addressFault.code = 4 ∧ FaultCode.keyIndexFault.code = 5) ∧
  ∀ (s t : State) (f : FaultRecord), s.Ready → step s = .next t →
    let op := s.wordAt s.pc.toNat
    (t.fault = some f ↔
      (0xFFF ≤ s.pc.toNat ∧ f = ⟨.addressFault, lowestOffending s.pc, s.pc⟩) ∨
      (s.pc.toNat ≤ 0xFFE ∧
        ((decode op = .error (.unknown op) ∧ f = ⟨.decodeFault, op, s.pc⟩) ∨
         (∃ nnn, decode op = .ok (.call nnn) ∧ s.sp.val = 16 ∧ f = ⟨.stackOverflow, op, s.pc⟩) ∨
         (decode op = .ok .ret ∧ s.sp.val = 0 ∧ f = ⟨.stackUnderflow, op, s.pc⟩) ∨
         (∃ x, (decode op = .ok (.skp x) ∨ decode op = .ok (.sknp x)) ∧ 15 < (s.readV x).toNat ∧
           f.code = .keyIndexFault ∧ f.info.toNat = (s.readV x).toNat ∧ f.pc = s.pc) ∨
         (∃ i, decode op = .ok i ∧ bytesAtI i ≠ 0 ∧ 0xFFF < s.i.toNat + bytesAtI i - 1 ∧
           f = ⟨.addressFault, lowestOffending s.i, s.pc⟩))))

/-- The halted state is sticky: a `STEP` reports the same fault and changes nothing, no event but `RESET` clears or overwrites the latch,
and `RESET` clears it (R152; D13). -/
def Obligations.HaltedUntilReset : Prop :=
  ∀ (s : State) (f : FaultRecord), s.fault = some f →
    (∀ rnd, handle (.step rnd) s = .next s ∧ eventResult (.step rnd) s = some (.fault f)) ∧
    (∀ e, (∀ image, e ≠ .reset image) → ∃ t, handle e s = .next t ∧ t.fault = some f) ∧
    (∀ image t, handle (.reset image) s = .next t → t.fault = none)

/-- The suspension latch: set to `Waiting(x)` by read-key, cleared by `KEYDOWN` and by `RESET`, and by nothing else; while it waits, a
`STEP` does nothing (R21). -/
def Obligations.SuspensionLatchTransitions : Prop :=
  ∀ (s : State) (e : Event) (t : State), handle e s = .next t →
    (∀ r, s.await = .waiting r → t.await ≠ .waiting r → (∃ k, e = .keydown k) ∨ ∃ image, e = .reset image) ∧
    (∀ r, t.await = .waiting r → s.await ≠ .waiting r → (∃ rnd, e = .step rnd) ∧ s.About (.ldVxK r)) ∧
    (∀ r rnd, e = .step rnd → s.About (.ldVxK r) → t.await = .waiting r) ∧
    (∀ k, e = .keydown k → t.await = .notWaiting) ∧
    (∀ image, e = .reset image → t.await = .notWaiting) ∧
    (∀ r rnd, s.await = .waiting r → e = .step rnd → t = s)

/-- Every `STEP`, and every event but a refused `RESET`, ends in a state: the machine has no other way to stop than its fault latch
(60_exceptions.md section 1, 70_reset_and_hazards.md R181; the mapping of faults to next states is the model's, log 3). -/
def Obligations.EveryEventAnswersNext : Prop :=
  ∀ s : State, (∃ t, step s = .next t) ∧ (∀ e, (∀ image, e ≠ .reset image) → ∃ t, handle e s = .next t) ∧
    ∀ image, image.length ≤ 3584 → ∃ t, handle (.reset image) s = .next t

/-- Where `pc` goes after an instruction that completes: the table of R83. -/
def Obligations.SuccessorPcTable : Prop :=
  ∀ (s t : State) (i : Instr) (rnd : Byte), s.About i → stepWith rnd s = .next t → t.fault = none → t.pc = successorPc i s

/-- No instruction changes a register it does not name as destination, but for `VF` in the six flag-writing instructions
(10_state.md R10, R11). -/
def Obligations.OnlyNamedRegistersChange : Prop :=
  ∀ (i : Instr) (s t : State), exec i s = .next t → ∀ r : Reg,
    t.readV r ≠ s.readV r → namesAsDestination i r ∨ (r = Reg.flag ∧ writesFlag i = true)

/-- Which instructions write each of the other pieces of state (10_state.md section 1, R12, R14 to R20; 44_display.md R133). -/
def Obligations.WritersOfEachPiece : Prop :=
  ∀ (i : Instr) (s t : State), exec i s = .next t →
    (t.i ≠ s.i → (∃ nnn, i = .ldI nnn) ∨ (∃ x, i = .addI x) ∨ ∃ x, i = .ldF x) ∧
    (t.stack ≠ s.stack → ∃ nnn, i = .call nnn) ∧
    (t.sp ≠ s.sp → i = .ret ∨ ∃ nnn, i = .call nnn) ∧
    (t.dt ≠ s.dt → ∃ x, i = .ldDTVx x) ∧
    (t.st ≠ s.st → ∃ x, i = .ldSTVx x) ∧
    ((∃ a, t.byteAt a ≠ s.byteAt a) → (∃ x, i = .ldB x) ∨ ∃ x, i = .dump x) ∧
    (t.disp ≠ s.disp → i = .cls ∨ ∃ x y n, i = .drw x y n) ∧
    t.key = s.key ∧
    (t.await ≠ s.await → ∃ x, i = .ldVxK x) ∧
    (t.rndDraws ≠ s.rndDraws → ∃ x kk, i = .rnd x kk)

/-! ### Control transfer (41_flow.md) -/

/-- return pops the stack into `pc`, and with an empty stack raises `StackUnderflow` (R90; D6, D7). -/
def Obligations.ReturnPops : Prop :=
  ∀ s : State, Encodes .ret 0x00EE ∧
    (∀ h : 0 < s.sp.val, ∃ t, exec .ret s = .next t ∧ t.sp.val = s.sp.val - 1 ∧
      t.pc = s.stack[s.sp.val - 1] ∧ Frame [.pc, .sp] s t) ∧
    (s.sp.val = 0 → exec .ret s = .next { s with fault := some ⟨.stackUnderflow, 0x00EE, s.pc⟩ })

/-- jump and jump-with-offset; the sum is not reduced modulo 4096 (R91, R93; D11). -/
def Obligations.JumpsSetPc : Prop :=
  ∀ (s : State) (nnn : BitVec 12),
    (Encodes (.jp nnn) (BitVec.ofNat 16 (0x1000 + nnn.toNat)) ∧
      ∃ t, exec (.jp nnn) s = .next t ∧ t.pc.toNat = nnn.toNat ∧ Frame [.pc] s t) ∧
    (Encodes (.jpV0 nnn) (BitVec.ofNat 16 (0xB000 + nnn.toNat)) ∧
      ∃ t, exec (.jpV0 nnn) s = .next t ∧ t.pc.toNat = nnn.toNat + (s.readV 0).toNat ∧ Frame [.pc] s t)

/-- call pushes the address after itself, then jumps; with a full stack it raises `StackOverflow` (R92; D6, D7). -/
def Obligations.CallPushes : Prop :=
  ∀ (s : State) (nnn : BitVec 12), Encodes (.call nnn) (BitVec.ofNat 16 (0x2000 + nnn.toNat)) ∧
    (s.sp.val < 16 → ∃ t, exec (.call nnn) s = .next t ∧
      (∀ j : Fin 16, t.stack[j.val] = if j.val = s.sp.val then s.pc + 2 else s.stack[j.val]) ∧
      t.sp.val = s.sp.val + 1 ∧ t.pc.toNat = nnn.toNat ∧ Frame [.pc, .sp, .stack] s t) ∧
    (s.sp.val = 16 → exec (.call nnn) s =
      .next { s with fault := some ⟨.stackOverflow, BitVec.ofNat 16 (0x2000 + nnn.toNat), s.pc⟩ })

/-- After a call, any state with the same `sp` and the same pushed slot returns to the instruction after the call (41_flow.md,
Properties of the family). -/
def Obligations.CallThenReturn : Prop :=
  ∀ (s t u : State) (nnn : BitVec 12), (h : s.sp.val < 16) → exec (.call nnn) s = .next t → u.sp = t.sp →
    u.stack[s.sp.val] = t.stack[s.sp.val] → ∃ w, exec .ret u = .next w ∧ w.pc = s.pc + 2 ∧ w.sp = s.sp

/-- The four value skips (R94 to R97). -/
def Obligations.ValueSkips : Prop :=
  ∀ (s : State) (x y : Reg) (kk : Byte),
    (Encodes (.seImm x kk) (BitVec.ofNat 16 (0x3000 + 256 * x.val + kk.toNat)) ∧
      ∃ t, exec (.seImm x kk) s = .next t ∧ t.pc = (if s.readV x = kk then s.pc + 4 else s.pc + 2) ∧ Frame [.pc] s t) ∧
    (Encodes (.sneImm x kk) (BitVec.ofNat 16 (0x4000 + 256 * x.val + kk.toNat)) ∧
      ∃ t, exec (.sneImm x kk) s = .next t ∧ t.pc = (if s.readV x = kk then s.pc + 2 else s.pc + 4) ∧ Frame [.pc] s t) ∧
    (Encodes (.seReg x y) (BitVec.ofNat 16 (0x5000 + 256 * x.val + 16 * y.val)) ∧
      ∃ t, exec (.seReg x y) s = .next t ∧ t.pc = (if s.readV x = s.readV y then s.pc + 4 else s.pc + 2) ∧ Frame [.pc] s t) ∧
    (Encodes (.sneReg x y) (BitVec.ofNat 16 (0x9000 + 256 * x.val + 16 * y.val)) ∧
      ∃ t, exec (.sneReg x y) s = .next t ∧ t.pc = (if s.readV x = s.readV y then s.pc + 2 else s.pc + 4) ∧ Frame [.pc] s t)

/-! ### Register arithmetic and logic (42_alu.md) -/

/-- load-immediate and add-immediate: no flag (R100, R101). -/
def Obligations.ImmediateLoadAndAdd : Prop :=
  ∀ (s : State) (x : Reg) (kk : Byte),
    (Encodes (.ldImm x kk) (BitVec.ofNat 16 (0x6000 + 256 * x.val + kk.toNat)) ∧
      ∃ t, exec (.ldImm x kk) s = .next t ∧ t.readV x = kk ∧ (∀ r, r ≠ x → t.readV r = s.readV r) ∧ t.pc = s.pc + 2 ∧
        Frame [.v, .pc] s t) ∧
    (Encodes (.addImm x kk) (BitVec.ofNat 16 (0x7000 + 256 * x.val + kk.toNat)) ∧
      ∃ t, exec (.addImm x kk) s = .next t ∧ (t.readV x).toNat = ((s.readV x).toNat + kk.toNat) % 256 ∧
        (∀ r, r ≠ x → t.readV r = s.readV r) ∧ t.pc = s.pc + 2 ∧ Frame [.v, .pc] s t)

/-- assign, or, and, xor, bit by bit; no flag is written (R102 to R105; D17). -/
def Obligations.MoveAndLogic : Prop :=
  ∀ (s : State) (x y : Reg),
    (Encodes (.ldReg x y) (BitVec.ofNat 16 (0x8000 + 256 * x.val + 16 * y.val)) ∧
      ∃ t, exec (.ldReg x y) s = .next t ∧ t.readV x = s.readV y ∧ (∀ r, r ≠ x → t.readV r = s.readV r) ∧ t.pc = s.pc + 2 ∧
        Frame [.v, .pc] s t) ∧
    (Encodes (.orReg x y) (BitVec.ofNat 16 (0x8001 + 256 * x.val + 16 * y.val)) ∧
      ∃ t, exec (.orReg x y) s = .next t ∧
        (∀ k, (t.readV x).getLsbD k = ((s.readV x).getLsbD k || (s.readV y).getLsbD k)) ∧
        (∀ r, r ≠ x → t.readV r = s.readV r) ∧ t.pc = s.pc + 2 ∧ Frame [.v, .pc] s t) ∧
    (Encodes (.andReg x y) (BitVec.ofNat 16 (0x8002 + 256 * x.val + 16 * y.val)) ∧
      ∃ t, exec (.andReg x y) s = .next t ∧
        (∀ k, (t.readV x).getLsbD k = ((s.readV x).getLsbD k && (s.readV y).getLsbD k)) ∧
        (∀ r, r ≠ x → t.readV r = s.readV r) ∧ t.pc = s.pc + 2 ∧ Frame [.v, .pc] s t) ∧
    (Encodes (.xorReg x y) (BitVec.ofNat 16 (0x8003 + 256 * x.val + 16 * y.val)) ∧
      ∃ t, exec (.xorReg x y) s = .next t ∧
        (∀ k, (t.readV x).getLsbD k = ((s.readV x).getLsbD k != (s.readV y).getLsbD k)) ∧
        (∀ r, r ≠ x → t.readV r = s.readV r) ∧ t.pc = s.pc + 2 ∧ Frame [.v, .pc] s t)

/-- add-with-carry: the sum modulo 256 and the carry, the flag written last, so that with `x = 15` the flag remains (R106, R111; D15). -/
def Obligations.AddWithCarry : Prop :=
  ∀ (s : State) (x y : Reg), Encodes (.addReg x y) (BitVec.ofNat 16 (0x8004 + 256 * x.val + 16 * y.val)) ∧
    ∃ t, exec (.addReg x y) s = .next t ∧
      (x ≠ 15 → (t.readV x).toNat = ((s.readV x).toNat + (s.readV y).toNat) % 256) ∧
      t.readV 15 = (if (s.readV x).toNat + (s.readV y).toNat > 255 then 1 else 0) ∧
      (∀ r, r ≠ x → r ≠ 15 → t.readV r = s.readV r) ∧ t.pc = s.pc + 2 ∧ Frame [.v, .pc] s t

/-- subtract-with-borrow and reverse-subtract: the difference modulo 256 and not-borrow, the flag written last (R107, R109; D15). -/
def Obligations.Subtractions : Prop :=
  ∀ (s : State) (x y : Reg),
    (Encodes (.subReg x y) (BitVec.ofNat 16 (0x8005 + 256 * x.val + 16 * y.val)) ∧
      ∃ t, exec (.subReg x y) s = .next t ∧
        (x ≠ 15 → ((t.readV x).toNat : Int) = ((s.readV x).toNat - (s.readV y).toNat : Int) % 256) ∧
        t.readV 15 = (if (s.readV x).toNat ≥ (s.readV y).toNat then 1 else 0) ∧
        (∀ r, r ≠ x → r ≠ 15 → t.readV r = s.readV r) ∧ t.pc = s.pc + 2 ∧ Frame [.v, .pc] s t) ∧
    (Encodes (.subn x y) (BitVec.ofNat 16 (0x8007 + 256 * x.val + 16 * y.val)) ∧
      ∃ t, exec (.subn x y) s = .next t ∧
        (x ≠ 15 → ((t.readV x).toNat : Int) = ((s.readV y).toNat - (s.readV x).toNat : Int) % 256) ∧
        t.readV 15 = (if (s.readV y).toNat ≥ (s.readV x).toNat then 1 else 0) ∧
        (∀ r, r ≠ x → r ≠ 15 → t.readV r = s.readV r) ∧ t.pc = s.pc + 2 ∧ Frame [.v, .pc] s t)

/-- The shifts under either value of the parameter `SHIFT_SRC`, the flag written last, and what the two instructions do under the
parameter's value (R108, R110; the default X is D16, log 5, and nothing here rests on it). -/
def Obligations.ShiftsUnderEitherSource : Prop :=
  ∀ (s : State) (src : Config.ShiftSrc) (x y : Reg),
    let a := if src = .x then (s.readV x).toNat else (s.readV y).toNat
    (Encodes (.shr x y) (BitVec.ofNat 16 (0x8006 + 256 * x.val + 16 * y.val)) ∧
      exec (.shr x y) s = shiftRight Config.shiftSrc x y s ∧
      ∃ t, shiftRight src x y s = .next t ∧ (x ≠ 15 → (t.readV x).toNat = a / 2) ∧ (t.readV 15).toNat = a % 2 ∧
        (∀ r, r ≠ x → r ≠ 15 → t.readV r = s.readV r) ∧ t.pc = s.pc + 2 ∧ Frame [.v, .pc] s t) ∧
    (Encodes (.shl x y) (BitVec.ofNat 16 (0x800E + 256 * x.val + 16 * y.val)) ∧
      exec (.shl x y) s = shiftLeft Config.shiftSrc x y s ∧
      ∃ t, shiftLeft src x y s = .next t ∧ (x ≠ 15 → (t.readV x).toNat = a * 2 % 256) ∧ (t.readV 15).toNat = a / 128 ∧
        (∀ r, r ≠ x → r ≠ 15 → t.readV r = s.readV r) ∧ t.pc = s.pc + 2 ∧ Frame [.v, .pc] s t)

/-- The shift instructions complete for every operand and read only `V[x]` under the parameter's default (42_alu.md R108, R110; this rests
on the default `SHIFT_SRC = X`, decision D16, log 5). -/
def Obligations.ShiftsReadVxByDefault : Prop :=
  ∀ (s : State) (x y : Reg),
    (∃ t, exec (.shr x y) s = .next t ∧ (x ≠ 15 → (t.readV x).toNat = (s.readV x).toNat / 2) ∧
      (t.readV 15).toNat = (s.readV x).toNat % 2 ∧ (∀ r, r ≠ x → r ≠ 15 → t.readV r = s.readV r) ∧ Frame [.v, .pc] s t) ∧
    (∃ t, exec (.shl x y) s = .next t ∧ (x ≠ 15 → (t.readV x).toNat = (s.readV x).toNat * 2 % 256) ∧
      (t.readV 15).toNat = (s.readV x).toNat / 128 ∧ (∀ r, r ≠ x → r ≠ 15 → t.readV r = s.readV r) ∧ Frame [.v, .pc] s t)

/-- random-and, for every byte `rnd` a `STEP` may bring; every other instruction and a halted or suspended `STEP` ignore `rnd`
(R112; D20). -/
def Obligations.RandomAndForEveryByte : Prop :=
  ∀ (s : State) (x : Reg) (kk : Byte), Encodes (.rnd x kk) (BitVec.ofNat 16 (0xC000 + 256 * x.val + kk.toNat)) ∧
    (∀ rnd, ∃ t, execWith rnd (.rnd x kk) s = .next t ∧ t.readV x = (rnd &&& kk) ∧ (t.readV x).toNat ≤ kk.toNat ∧
      (∀ r, r ≠ x → t.readV r = s.readV r) ∧ t.pc = s.pc + 2 ∧ Frame [.v, .pc] s t) ∧
    (∀ rnd i, (∀ x' kk', i ≠ .rnd x' kk') → execWith rnd i s = exec i s) ∧
    (∀ rnd, s.fault ≠ none ∨ s.await ≠ .notWaiting → stepWith rnd s = .next s)

/-- random-and completes with the model's own free byte in the place of `rnd`, some byte of which nothing is known, and moves the model's
own counter on by one. The free byte and the counter are the model's choice (log 1), no rule of the spec; the effect is that of
42_alu.md R112. -/
def Obligations.RandomAndWithFreeByte : Prop :=
  ∀ (s : State) (x : Reg) (kk : Byte), ∃ t, exec (.rnd x kk) s = .next t ∧ (∃ rnd : Byte, t.readV x = (rnd &&& kk)) ∧
    (t.readV x).toNat ≤ kk.toNat ∧ (∀ r, r ≠ x → t.readV r = s.readV r) ∧ t.pc = s.pc + 2 ∧
    t.rndDraws = s.rndDraws + 1 ∧ Frame [.v, .pc, .rndDraws] s t

/-! ### Index register and memory (43_index_memory.md, 20_memory.md) -/

/-- set-index, add-to-index modulo 2^16 without a flag, load-glyph-address unmasked (R120 to R122; D10). -/
def Obligations.IndexRegisterWrites : Prop :=
  ∀ (s : State) (x : Reg) (nnn : BitVec 12),
    (Encodes (.ldI nnn) (BitVec.ofNat 16 (0xA000 + nnn.toNat)) ∧
      ∃ t, exec (.ldI nnn) s = .next t ∧ t.i.toNat = nnn.toNat ∧ t.pc = s.pc + 2 ∧ Frame [.i, .pc] s t) ∧
    (Encodes (.addI x) (BitVec.ofNat 16 (0xF01E + 256 * x.val)) ∧
      ∃ t, exec (.addI x) s = .next t ∧ t.i.toNat = (s.i.toNat + (s.readV x).toNat) % 65536 ∧ t.pc = s.pc + 2 ∧
        Frame [.i, .pc] s t) ∧
    (Encodes (.ldF x) (BitVec.ofNat 16 (0xF029 + 256 * x.val)) ∧
      ∃ t, exec (.ldF x) s = .next t ∧ t.i.toNat = (s.readV x).toNat * 5 ∧ t.pc = s.pc + 2 ∧ Frame [.i, .pc] s t)

/-- store-BCD: three digits at `I`, `I + 1`, `I + 2`, every other byte as before; across 0xFFF it raises `AddressFault` and stores
nothing (R123; D11, D18). -/
def Obligations.StoreBcd : Prop :=
  ∀ (s : State) (x : Reg), Encodes (.ldB x) (BitVec.ofNat 16 (0xF033 + 256 * x.val)) ∧
    (s.i.toNat + 2 ≤ 0xFFF → ∃ t, exec (.ldB x) s = .next t ∧
      (t.byteAt s.i.toNat).toNat = (s.readV x).toNat / 100 ∧
      (t.byteAt (s.i.toNat + 1)).toNat = (s.readV x).toNat / 10 % 10 ∧
      (t.byteAt (s.i.toNat + 2)).toNat = (s.readV x).toNat % 10 ∧
      (∀ a, a < s.i.toNat ∨ s.i.toNat + 2 < a → t.byteAt a = s.byteAt a) ∧
      (s.mem.wf = true → t.mem.wf = true) ∧ t.pc = s.pc + 2 ∧ Frame [.mem, .pc] s t) ∧
    (0xFFF < s.i.toNat + 2 → exec (.ldB x) s = .next { s with fault := some ⟨.addressFault, lowestOffending s.i, s.pc⟩ })

/-- register-dump: `V[0]..V[x]` at `I` upward, every other byte as before; across 0xFFF it raises `AddressFault` and stores nothing
(R124; D11, D18). -/
def Obligations.RegisterDump : Prop :=
  ∀ (s : State) (x : Reg), Encodes (.dump x) (BitVec.ofNat 16 (0xF055 + 256 * x.val)) ∧
    (s.i.toNat + x.val ≤ 0xFFF → ∃ t, exec (.dump x) s = .next t ∧
      (∀ r : Reg, r ≤ x → t.byteAt (s.i.toNat + r.val) = s.readV r) ∧
      (∀ a, a < s.i.toNat ∨ s.i.toNat + x.val < a → t.byteAt a = s.byteAt a) ∧
      (s.mem.wf = true → t.mem.wf = true) ∧ t.pc = s.pc + 2 ∧ Frame [.mem, .pc] s t) ∧
    (0xFFF < s.i.toNat + x.val → exec (.dump x) s = .next { s with fault := some ⟨.addressFault, lowestOffending s.i, s.pc⟩ })

/-- register-load: `V[0]..V[x]` from `I` upward, the registers above `x` as before; across 0xFFF it raises `AddressFault` and loads
nothing (R125; D11, D18). -/
def Obligations.RegisterLoad : Prop :=
  ∀ (s : State) (x : Reg), Encodes (.load x) (BitVec.ofNat 16 (0xF065 + 256 * x.val)) ∧
    (s.i.toNat + x.val ≤ 0xFFF → ∃ t, exec (.load x) s = .next t ∧
      (∀ r : Reg, r ≤ x → t.readV r = s.byteAt (s.i.toNat + r.val)) ∧
      (∀ r : Reg, x < r → t.readV r = s.readV r) ∧ t.pc = s.pc + 2 ∧ Frame [.v, .pc] s t) ∧
    (0xFFF < s.i.toNat + x.val → exec (.load x) s = .next { s with fault := some ⟨.addressFault, lowestOffending s.i, s.pc⟩ })

/-- Dumping `V[0]..V[x]` and loading them back from the same `I`, whatever the registers held meanwhile, gives the dumped values and
leaves the registers above `x` alone (95_test_vectors.md S10, 43_index_memory.md R125). -/
def Obligations.DumpThenLoadRoundTrip : Prop :=
  ∀ (s t : State) (x : Reg) (v : Vector Byte 16), s.i.toNat + x.val ≤ 0xFFF → exec (.dump x) s = .next t →
    ∃ u, exec (.load x) { t with v := v } = .next u ∧
      (∀ r : Reg, r ≤ x → u.readV r = s.readV r) ∧ (∀ r : Reg, x < r → u.readV r = v[r.val])

/-- Single accesses: within 0x000..0xFFF a read gives the byte and a write changes that byte and nothing else; above, both raise
`AddressFault` with the address (R42, R43; D11). -/
def Obligations.MemReadAndMemWrite : Prop :=
  ∀ (m : Memory) (a : Nat) (v : Byte),
    (a ≤ 0xFFF → memRead m a = .ok (m.get a) ∧ ∃ m', memWrite m a v = .ok m' ∧ memRead m' a = .ok v ∧
      (∀ b, b ≠ a → memRead m' b = memRead m b) ∧ (m.wf = true → m'.wf = true)) ∧
    (0xFFF < a → memRead m a = .error a ∧ memWrite m a v = .error a)

/-- A register-dump over the bytes at `pc` is seen by the very next fetch (R51; D25). -/
def Obligations.StoreSeenByNextFetch : Prop :=
  ∀ (s t : State) (x : Reg) (j : Nat) (h : j < 15), s.fault = none → exec (.dump x) s = .next t → t.fault = none →
    j + 1 ≤ x.val → t.pc.toNat = s.i.toNat + j →
    fetchWord t.mem t.pc.toNat = .ok (wordOfBytes (s.readV ⟨j, by omega⟩) (s.readV ⟨j + 1, by omega⟩))

/-! ### Display (44_display.md) -/

/-- clear-screen turns every pixel off, writes no flag and reports no change (R130). -/
def Obligations.ClearScreen : Prop :=
  ∀ s : State, Encodes .cls 0x00E0 ∧
    ∃ t, exec .cls s = .next t ∧ (∀ px py, t.pixel px py = false) ∧ t.pc = s.pc + 2 ∧ Frame [.disp, .pc] s t ∧
      (s.About .cls → stepResult s t = .ok false)

/-- draw, pixel by pixel: exactly the pixels under a 1 of the sprite are inverted, with wraparound on both axes, and `VF` is 1 iff one of
them was on, else 0; a sprite byte above 0xFFF raises `AddressFault` and nothing is drawn (R131; D11, D18, D21, D22). -/
def Obligations.DrawInvertsSpritePixels : Prop :=
  ∀ (s : State) (x y : Reg) (n : BitVec 4),
    Encodes (.drw x y n) (BitVec.ofNat 16 (0xD000 + 256 * x.val + 16 * y.val + n.toNat)) ∧
    (n = 0 ∨ s.i.toNat + n.toNat - 1 ≤ 0xFFF → ∃ t, exec (.drw x y n) s = .next t ∧
      (∀ px py, SpriteOn s (s.readV x).toNat (s.readV y).toNat s.i.toNat n.toNat px py → t.pixel px py = !s.pixel px py) ∧
      (∀ px py, ¬ SpriteOn s (s.readV x).toNat (s.readV y).toNat s.i.toNat n.toNat px py → t.pixel px py = s.pixel px py) ∧
      ((∃ px py, SpriteOn s (s.readV x).toNat (s.readV y).toNat s.i.toNat n.toNat px py ∧ s.pixel px py = true) →
        t.readV 15 = 1) ∧
      ((¬ ∃ px py, SpriteOn s (s.readV x).toNat (s.readV y).toNat s.i.toNat n.toNat px py ∧ s.pixel px py = true) →
        t.readV 15 = 0) ∧
      (∀ r, r ≠ 15 → t.readV r = s.readV r) ∧ t.pc = s.pc + 2 ∧ Frame [.v, .disp, .pc] s t ∧
      (s.About (.drw x y n) → stepResult s t = .ok true)) ∧
    (n ≠ 0 → 0xFFF < s.i.toNat + n.toNat - 1 →
      exec (.drw x y n) s = .next { s with fault := some ⟨.addressFault, lowestOffending s.i, s.pc⟩ })

/-- Drawing the same sprite at the same location twice restores every pixel, whatever else changed between the two draws and whichever
registers and address name the sprite the second time (R132, first property). -/
def Obligations.DrawTwiceRestoresPixels : Prop :=
  ∀ (s t u w : State) (x y x' y' : Reg) (n : BitVec 4), s.fault = none → exec (.drw x y n) s = .next t → t.fault = none →
    u.fault = none → u.disp = t.disp → u.readV x' = s.readV x → u.readV y' = s.readV y →
    (∀ r < n.toNat, u.byteAt (u.i.toNat + r) = s.byteAt (s.i.toNat + r)) →
    exec (.drw x' y' n) u = .next w → w.fault = none → w.disp = s.disp

/-- The collision flag of a draw is 1 iff some pixel went from on to off, else 0 (R132, second property). -/
def Obligations.CollisionIffPixelTurnedOff : Prop :=
  ∀ (s t : State) (x y : Reg) (n : BitVec 4), s.fault = none → exec (.drw x y n) s = .next t → t.fault = none →
    ((∃ px py, s.pixel px py = true ∧ t.pixel px py = false) → t.readV 15 = 1) ∧
    ((¬ ∃ px py, s.pixel px py = true ∧ t.pixel px py = false) → t.readV 15 = 0)

/-- A sprite with origin `(W - 1, 0)` wraps its second column to `x = 0` (R132, third property; W = 64 is D9, log 6). -/
def Obligations.SpriteWrapsToColumnZero : Prop :=
  ∀ (s t : State) (x y : Reg) (n : BitVec 4), s.fault = none → (s.readV x).toNat = Config.W - 1 → (s.readV y).toNat = 0 → n ≠ 0 →
    (s.byteAt s.i.toNat).getLsbD 6 = true → exec (.drw x y n) s = .next t → t.fault = none → t.pixel 0 0 = !s.pixel 0 0

/-! ### Keys and timers (45_keys_timers.md) -/

/-- The key skips test the level of `key[V[x]]`; an index above 15 raises `KeyIndexFault`, not masked (R140, R141; D19). -/
def Obligations.KeySkips : Prop :=
  ∀ (s : State) (x : Reg),
    Encodes (.skp x) (BitVec.ofNat 16 (0xE09E + 256 * x.val)) ∧ Encodes (.sknp x) (BitVec.ofNat 16 (0xE0A1 + 256 * x.val)) ∧
    (∀ k : KeyIdx, (s.readV x).toNat = k.val →
      (∃ t, exec (.skp x) s = .next t ∧ t.pc = (if s.key[k.val] = true then s.pc + 4 else s.pc + 2) ∧ Frame [.pc] s t) ∧
      (∃ t, exec (.sknp x) s = .next t ∧ t.pc = (if s.key[k.val] = true then s.pc + 2 else s.pc + 4) ∧ Frame [.pc] s t)) ∧
    (15 < (s.readV x).toNat → ∀ i, i = .skp x ∨ i = .sknp x →
      exec i s = .next { s with fault := some ⟨.keyIndexFault, BitVec.ofNat 16 (s.readV x).toNat, s.pc⟩ })

/-- read-key enters the suspension and moves `pc` on; it writes no register and does not look at the keys, and the suspended steps that
follow change nothing (R142). -/
def Obligations.ReadKeySuspends : Prop :=
  ∀ (s : State) (x : Reg), Encodes (.ldVxK x) (BitVec.ofNat 16 (0xF00A + 256 * x.val)) ∧
    ∃ t, exec (.ldVxK x) s = .next t ∧ t.await = .waiting x ∧ t.pc = s.pc + 2 ∧ Frame [.await, .pc] s t ∧
      (s.fault = none → ∀ rnd, handle (.step rnd) t = .next t ∧ eventResult (.step rnd) t = some (.ok false))

/-- The three transfers between a register and a timer (R143 to R145). -/
def Obligations.TimerTransfers : Prop :=
  ∀ (s : State) (x : Reg),
    (Encodes (.ldVxDT x) (BitVec.ofNat 16 (0xF007 + 256 * x.val)) ∧
      ∃ t, exec (.ldVxDT x) s = .next t ∧ t.readV x = s.dt ∧ (∀ r, r ≠ x → t.readV r = s.readV r) ∧ t.pc = s.pc + 2 ∧
        Frame [.v, .pc] s t) ∧
    (Encodes (.ldDTVx x) (BitVec.ofNat 16 (0xF015 + 256 * x.val)) ∧
      ∃ t, exec (.ldDTVx x) s = .next t ∧ t.dt = s.readV x ∧ t.pc = s.pc + 2 ∧ Frame [.dt, .pc] s t) ∧
    (Encodes (.ldSTVx x) (BitVec.ofNat 16 (0xF018 + 256 * x.val)) ∧
      ∃ t, exec (.ldSTVx x) s = .next t ∧ t.st = s.readV x ∧ t.pc = s.pc + 2 ∧ Frame [.st, .pc] s t ∧
        (t.soundActive = true ↔ s.readV x ≠ 0))

/-! ### Events (60_exceptions.md, 70_reset_and_hazards.md) -/

/-- `TICK` counts both timers down by one, floored at 0, and changes nothing else, in every engine condition (R156). -/
def Obligations.TickCountsDown : Prop :=
  ∀ s : State, ∃ t, handle .tick s = .next t ∧ t.dt.toNat = s.dt.toNat - 1 ∧ t.st.toNat = s.st.toNat - 1 ∧ Frame [.dt, .st] s t

/-- After `k` ticks a timer is `k` lower, floored at 0: a timer set to `v` reaches 0 after exactly `v` ticks (R157). -/
def Obligations.TimerAfterManyTicks : Prop :=
  ∀ (s : State) (k : Nat), ∃ t, handleAll (List.replicate k .tick) s = .next t ∧
    t.dt.toNat = s.dt.toNat - k ∧ t.st.toNat = s.st.toNat - k ∧ Frame [.dt, .st] s t

/-- `KEYDOWN(k)` sets the key, and resolves a suspension by writing `k` into the target register; nothing else changes, `pc` least of all
(R158, R163). -/
def Obligations.KeydownResolvesSuspension : Prop :=
  ∀ (s : State) (k : KeyIdx), ∃ t, handle (.keydown k) s = .next t ∧
    (∀ j : KeyIdx, t.key[j.val] = if j = k then true else s.key[j.val]) ∧ t.await = .notWaiting ∧
    (∀ r, s.await = .waiting r → (t.readV r).toNat = k.val ∧ ∀ q, q ≠ r → t.readV q = s.readV q) ∧
    (s.await = .notWaiting → ∀ q, t.readV q = s.readV q) ∧ Frame [.v, .key, .await] s t

/-- `KEYUP(k)` clears the key and has no other effect (R159). -/
def Obligations.KeyupClearsKey : Prop :=
  ∀ (s : State) (k : KeyIdx), ∃ t, handle (.keyup k) s = .next t ∧
    (∀ j : KeyIdx, t.key[j.val] = if j = k then false else s.key[j.val]) ∧ Frame [.key] s t

/-- While suspended, only timers and keys change, whatever `STEP`, `TICK` and `KEYUP` events come and however many (R162). -/
def Obligations.SuspendedUntilKeydown : Prop :=
  ∀ (es : List Event) (s : State) (r : Reg), s.fault = none → s.await = .waiting r →
    (∀ e ∈ es, e = .tick ∨ (∃ rnd, e = .step rnd) ∨ ∃ k, e = .keyup k) →
    ∃ t, handleAll es s = .next t ∧ Frame [.dt, .st, .key] s t ∧ ∀ rnd, eventResult (.step rnd) t = some (.ok false)

/-- `RESET(image)` gives every piece of state its reset value, with no dependence on the state before; an image over 3584 bytes is
refused (R25, R180 to R182; the glyph bytes are D23, log 7). -/
def Obligations.ResetContents : Prop :=
  ∀ (s : State) (image : List Byte),
    (image.length ≤ 3584 → ∃ t, handle (.reset image) s = .next t ∧ (∀ r, t.readV r = 0) ∧ t.i = 0 ∧ t.pc = 0x200 ∧ t.sp = 0 ∧
      (∀ j : Fin 16, t.stack[j.val] = 0) ∧ t.dt = 0 ∧ t.st = 0 ∧
      (∀ a, a < 0x50 → t.byteAt a = Config.glyphTable.getD a 0) ∧
      (∀ a, 0x50 ≤ a → a < 0x200 → t.byteAt a = 0) ∧
      (∀ j, j < image.length → t.byteAt (0x200 + j) = image.getD j 0) ∧
      (∀ a, 0x200 + image.length ≤ a → a ≤ 0xFFF → t.byteAt a = 0) ∧
      (∀ px py, t.pixel px py = false) ∧ (∀ k : KeyIdx, t.key[k.val] = false) ∧ t.await = .notWaiting ∧ t.fault = none) ∧
    (3584 < image.length → handle (.reset image) s = .refused (.imageTooLong image.length))

/-- The invariant holds right after reset, and the state after reset is `RESET` of the empty image (10_state.md R25). -/
def Obligations.InvariantAtReset : Prop := State.reset.Inv ∧ State.reset = loaded []

/-- Every `STEP` keeps the invariant: memory canonical, `pc` at most 0x10FE, return addresses at most 0x1000, a latched fault well formed and
recorded at `pc` with the engine not suspended (10_state.md R13, 40_step_cycle.md R80, 60_exceptions.md R150). -/
def Obligations.StepKeepsInvariant : Prop := ∀ s t : State, s.Inv → step s = .next t → t.Inv

/-- Every event of the host keeps the invariant, and from any state `RESET` establishes it. -/
def Obligations.EventsKeepInvariant : Prop :=
  (∀ (s t : State) (e : Event), s.Inv → handle e s = .next t → t.Inv) ∧
  (∀ (s t : State) (image : List Byte), handle (.reset image) s = .next t → t.Inv)

/-- "Stopped at `a`" is a fixed point of `STEP`: the whole state unchanged, `Ok(false)`; the other events leave it stopped there (R189). -/
def Obligations.StoppedIsFixedPoint : Prop :=
  ∀ (s : State) (a : BitVec 12), s.StoppedAt a → step s = .next s ∧ stepResult s s = .ok false ∧
    ∀ e t, (∀ image, e ≠ .reset image) → handle e s = .next t → t.StoppedAt a
end

