-- ==== Sys2Proof/Laws/Decode.lean ====
section
/-! SUPPORT. The three word shapes and the fields as numbers, what a field reads in a word that the encoder's shape built
(30_encoding.md R61, R62), and a word put together again from its fields. None of them is a simp lemma: a proof names the ones it
uses. -/

namespace Sys2Proof

/-! ### As numbers -/

theorem toNat_append_mul {n m : Nat} (a : BitVec n) (b : BitVec m) : (a ++ b).toNat = a.toNat * 2 ^ m + b.toNat := by
  rw [BitVec.toNat_append, ← Nat.shiftLeft_add_eq_or_of_lt b.isLt, Nat.shiftLeft_eq]

theorem wordA_toNat (f : BitVec 4) (nnn : BitVec 12) : (wordA f nnn).toNat = f.toNat * 4096 + nnn.toNat :=
  toNat_append_mul f nnn

theorem wordI_toNat (f : BitVec 4) (x : Reg) (kk : Byte) :
    (wordI f x kk).toNat = f.toNat * 4096 + x.val * 256 + kk.toNat := by
  have h := toNat_append_mul (f ++ BitVec.ofFin (w := 4) x) kk
  rw [toNat_append_mul f] at h
  refine h.trans ?_
  simp only [BitVec.toNat_ofFin]
  omega

theorem wordR_toNat (f : BitVec 4) (x y : Reg) (n : BitVec 4) :
    (wordR f x y n).toNat = f.toNat * 4096 + x.val * 256 + y.val * 16 + n.toNat := by
  have h := toNat_append_mul (f ++ BitVec.ofFin (w := 4) x ++ BitVec.ofFin (w := 4) y) n
  rw [toNat_append_mul (f ++ BitVec.ofFin (w := 4) x), toNat_append_mul f] at h
  refine h.trans ?_
  simp only [BitVec.toNat_ofFin]
  omega

theorem wordOfBytes_toNat (b0 b1 : Byte) : (wordOfBytes b0 b1).toNat = b0.toNat * 256 + b1.toNat :=
  toNat_append_mul b0 b1

theorem family_toNat (w : Word) : (family w).toNat = w.toNat / 4096 := by
  simp only [family, BitVec.extractLsb'_toNat, Nat.shiftRight_eq_div_pow]
  omega

theorem fieldF_eq_family (w : Word) : fieldF w = family w := rfl

theorem fieldN_eq_lowNibble (w : Word) : fieldN w = lowNibble w := rfl

theorem fieldKK_eq_lowByte (w : Word) : fieldKK w = lowByte w := rfl

theorem fieldF_toNat (w : Word) : (fieldF w).toNat = w.toNat / 4096 := family_toNat w

theorem lowNibble_toNat (w : Word) : (lowNibble w).toNat = w.toNat % 16 := by
  simp only [lowNibble, BitVec.extractLsb'_toNat, Nat.shiftRight_eq_div_pow]
  omega

theorem lowByte_toNat (w : Word) : (lowByte w).toNat = w.toNat % 256 := by
  simp only [lowByte, BitVec.extractLsb'_toNat, Nat.shiftRight_eq_div_pow]
  omega

theorem fieldX_val (w : Word) : (fieldX w).val = w.toNat / 256 % 16 := by
  show (w.extractLsb' 8 4).toNat = _
  simp only [BitVec.extractLsb'_toNat, Nat.shiftRight_eq_div_pow]

theorem fieldY_val (w : Word) : (fieldY w).val = w.toNat / 16 % 16 := by
  show (w.extractLsb' 4 4).toNat = _
  simp only [BitVec.extractLsb'_toNat, Nat.shiftRight_eq_div_pow]

theorem fieldN_toNat (w : Word) : (fieldN w).toNat = w.toNat % 16 := lowNibble_toNat w

theorem fieldKK_toNat (w : Word) : (fieldKK w).toNat = w.toNat % 256 := lowByte_toNat w

theorem fieldNNN_toNat (w : Word) : (fieldNNN w).toNat = w.toNat % 4096 := by
  simp only [fieldNNN, BitVec.extractLsb'_toNat, Nat.shiftRight_eq_div_pow]
  omega

/-! ### Format A -/

theorem family_wordA (f : BitVec 4) (nnn : BitVec 12) : family (wordA f nnn) = f := by
  apply BitVec.eq_of_toNat_eq
  rw [family_toNat, wordA_toNat]
  omega

theorem fieldF_wordA (f : BitVec 4) (nnn : BitVec 12) : fieldF (wordA f nnn) = f := family_wordA f nnn

theorem fieldNNN_wordA (f : BitVec 4) (nnn : BitVec 12) : fieldNNN (wordA f nnn) = nnn := by
  apply BitVec.eq_of_toNat_eq
  rw [fieldNNN_toNat, wordA_toNat]
  omega

/-! ### Formats I and X -/

theorem family_wordI (f : BitVec 4) (x : Reg) (kk : Byte) : family (wordI f x kk) = f := by
  apply BitVec.eq_of_toNat_eq
  rw [family_toNat, wordI_toNat]
  omega

theorem fieldF_wordI (f : BitVec 4) (x : Reg) (kk : Byte) : fieldF (wordI f x kk) = f := family_wordI f x kk

theorem fieldX_wordI (f : BitVec 4) (x : Reg) (kk : Byte) : fieldX (wordI f x kk) = x := by
  apply Fin.ext
  rw [fieldX_val, wordI_toNat]
  omega

theorem lowByte_wordI (f : BitVec 4) (x : Reg) (kk : Byte) : lowByte (wordI f x kk) = kk := by
  apply BitVec.eq_of_toNat_eq
  rw [lowByte_toNat, wordI_toNat]
  omega

theorem fieldKK_wordI (f : BitVec 4) (x : Reg) (kk : Byte) : fieldKK (wordI f x kk) = kk := lowByte_wordI f x kk

/-! ### Formats R and D -/

theorem family_wordR (f : BitVec 4) (x y : Reg) (n : BitVec 4) : family (wordR f x y n) = f := by
  apply BitVec.eq_of_toNat_eq
  rw [family_toNat, wordR_toNat]
  omega

theorem fieldF_wordR (f : BitVec 4) (x y : Reg) (n : BitVec 4) : fieldF (wordR f x y n) = f := family_wordR f x y n

theorem fieldX_wordR (f : BitVec 4) (x y : Reg) (n : BitVec 4) : fieldX (wordR f x y n) = x := by
  apply Fin.ext
  rw [fieldX_val, wordR_toNat]
  omega

theorem fieldY_wordR (f : BitVec 4) (x y : Reg) (n : BitVec 4) : fieldY (wordR f x y n) = y := by
  apply Fin.ext
  rw [fieldY_val, wordR_toNat]
  omega

theorem lowNibble_wordR (f : BitVec 4) (x y : Reg) (n : BitVec 4) : lowNibble (wordR f x y n) = n := by
  apply BitVec.eq_of_toNat_eq
  rw [lowNibble_toNat, wordR_toNat]
  omega

theorem fieldN_wordR (f : BitVec 4) (x y : Reg) (n : BitVec 4) : fieldN (wordR f x y n) = n := lowNibble_wordR f x y n

/-! ### A word from its fields -/

theorem wordA_fields (w : Word) : wordA (fieldF w) (fieldNNN w) = w := by
  apply BitVec.eq_of_toNat_eq
  rw [wordA_toNat, fieldF_toNat, fieldNNN_toNat]
  omega

theorem wordI_fields (w : Word) : wordI (fieldF w) (fieldX w) (fieldKK w) = w := by
  apply BitVec.eq_of_toNat_eq
  rw [wordI_toNat, fieldF_toNat, fieldX_val, fieldKK_toNat]
  omega

theorem wordR_fields (w : Word) : wordR (fieldF w) (fieldX w) (fieldY w) (fieldN w) = w := by
  apply BitVec.eq_of_toNat_eq
  rw [wordR_toNat, fieldF_toNat, fieldX_val, fieldY_val, fieldN_toNat]
  omega

end Sys2Proof
end

