-- ==== Sys2Proof/Laws/Memory.lean ====
section
/-! SUPPORT. Memory: reading after writing, the canonical form (every operation keeps it; in it, equal reads are equal memories), and
one lemma each for `memReadN` and `memWriteN` that says all they can do. -/

namespace Sys2Proof.Machine

/-! ### One byte -/

theorem Memory.get_of_unlisted {m : Memory} {a : Nat} (h : ∀ c ∈ m, c.1 ≠ a) : m.get a = background a := by
  induction m with
  | nil => rfl
  | cons c rest ih =>
    have hc : c.1 ≠ a := h c (by simp)
    simp only [Memory.get, if_neg hc]
    exact ih fun d hd => h d (by simp [hd])

theorem Memory.get_filter_ne {m : Memory} {a b : Nat} (h : b ≠ a) :
    Memory.get (m.filter fun c => c.1 != a) b = m.get b := by
  induction m with
  | nil => rfl
  | cons c rest ih =>
    by_cases hc : c.1 = a
    · have : c.1 ≠ b := fun e => h (e.symm.trans hc)
      simp [Memory.get, hc, ih, show ¬ a = b from fun e => h e.symm]
    · simp [Memory.get, hc, ih]

theorem Memory.get_insert {m : Memory} {a : Nat} (h : ∀ c ∈ m, c.1 ≠ a) (v : Byte) (b : Nat) :
    (m.insert a v).get b = if b = a then v else m.get b := by
  induction m with
  | nil =>
    by_cases hb : b = a
    · subst hb
      by_cases hv : v = background b <;> simp [Memory.insert, Memory.cons, Memory.get, hv]
    · by_cases hv : v = background a <;>
        simp [Memory.insert, Memory.cons, Memory.get, hv, hb, show ¬ a = b from fun e => hb e.symm]
  | cons c rest ih =>
    have hrest : ∀ d ∈ rest, d.1 ≠ a := fun d hd => h d (by simp [hd])
    have hc : c.1 ≠ a := h c (by simp)
    simp only [Memory.insert]
    split
    · by_cases hb : b = a
      · subst hb
        by_cases hv : v = background b
        · simp only [Memory.cons, hv, if_true]
          exact Memory.get_of_unlisted h
        · simp [Memory.cons, hv, Memory.get]
      · by_cases hv : v = background a
        · simp [Memory.cons, hv, hb]
        · simp [Memory.cons, hv, hb, Memory.get, show ¬ a = b from fun e => hb e.symm]
    · simp only [Memory.get, ih hrest]
      by_cases hb : b = a
      · simp [hb, hc]
      · simp [hb]

/-- Read after write: the byte written, and every other byte as before (20_memory.md R43, R49). It holds of every list. -/
theorem Memory.get_set (m : Memory) (a : Nat) (v : Byte) (b : Nat) :
    (m.set a v).get b = if b = a then v else m.get b := by
  rw [Memory.set, Memory.get_insert (by simp)]
  split
  · rfl
  · rename_i hb
    exact Memory.get_filter_ne hb

/-! ### The canonical form -/

theorem Memory.wf_cons_iff {c : Host.Cell} {rest : Memory} :
    Memory.wf (c :: rest) = true ↔
      c.1 < Config.memSize ∧ c.2 ≠ background c.1 ∧ (∀ d ∈ rest, c.1 < d.1) ∧ Memory.wf rest = true := by
  simp [Memory.wf, and_assoc]

theorem Memory.wf_filter {m : Memory} (h : m.wf = true) (p : Host.Cell → Bool) : Memory.wf (m.filter p) = true := by
  induction m with
  | nil => rfl
  | cons c rest ih =>
    obtain ⟨h1, h2, h3, h4⟩ := Memory.wf_cons_iff.mp h
    simp only [List.filter_cons]
    split
    · exact Memory.wf_cons_iff.mpr ⟨h1, h2, fun d hd => h3 d (List.mem_filter.mp hd).1, ih h4⟩
    · exact ih h4

theorem Memory.mem_insert {m : Memory} {a : Nat} {v : Byte} {d : Host.Cell} (h : d ∈ m.insert a v) : d = (a, v) ∨ d ∈ m := by
  induction m with
  | nil => revert h; simp only [Memory.insert, Memory.cons]; split <;> simp
  | cons c rest ih =>
    revert h
    simp only [Memory.insert, Memory.cons]
    split
    · split <;> simp only [List.mem_cons] <;> tauto
    · simp only [List.mem_cons]
      rintro (rfl | h)
      · exact .inr (.inl rfl)
      · exact (ih h).imp id .inr

theorem Memory.wf_insert {m : Memory} {a : Nat} {v : Byte} (hm : m.wf = true) (hu : ∀ c ∈ m, c.1 ≠ a) (ha : a < Config.memSize) :
    (m.insert a v).wf = true := by
  induction m with
  | nil => by_cases hv : v = background a <;> simp [Memory.insert, Memory.cons, Memory.wf, hv, ha]
  | cons c rest ih =>
    obtain ⟨h1, h2, h3, h4⟩ := Memory.wf_cons_iff.mp hm
    have hc : c.1 ≠ a := hu c (by simp)
    simp only [Memory.insert]
    split
    · rename_i hlt
      by_cases hv : v = background a
      · simpa [Memory.cons, hv] using hm
      · rw [Memory.cons, if_neg hv]
        refine Memory.wf_cons_iff.mpr ⟨ha, hv, fun d hd => ?_, hm⟩
        rcases List.mem_cons.mp hd with rfl | hd
        · exact hlt
        · exact lt_trans hlt (h3 d hd)
    · refine Memory.wf_cons_iff.mpr ⟨h1, h2, fun d hd => ?_, ih h4 fun d hd => hu d (by simp [hd])⟩
      rcases Memory.mem_insert hd with rfl | hd
      · simp only at *; omega
      · exact h3 d hd

/-- A write inside memory keeps the canonical form. -/
theorem Memory.wf_set {m : Memory} (hm : m.wf = true) {a : Nat} (ha : a < Config.memSize) (v : Byte) : (m.set a v).wf = true :=
  Memory.wf_insert (Memory.wf_filter hm _) (by simp) ha

/-- In the canonical form, memories that read the same are the same data. -/
theorem Memory.ext_get {m n : Memory} (hm : m.wf = true) (hn : n.wf = true) (h : ∀ a, m.get a = n.get a) : m = n := by
  induction m generalizing n with
  | nil =>
    cases n with
    | nil => rfl
    | cons d rest =>
      obtain ⟨_, h2, _, _⟩ := Memory.wf_cons_iff.mp hn
      exact absurd (by simpa [Memory.get] using (h d.1).symm) h2
  | cons c rest ih =>
    obtain ⟨_, c2, c3, c4⟩ := Memory.wf_cons_iff.mp hm
    cases n with
    | nil => exact absurd (by simpa [Memory.get] using h c.1) c2
    | cons d rest' =>
      obtain ⟨_, d2, d3, d4⟩ := Memory.wf_cons_iff.mp hn
      have unlisted : ∀ {a} {r : Memory}, (∀ e ∈ r, a < e.1) → r.get a = background a :=
        fun hr => Memory.get_of_unlisted fun e he => (hr e he).ne'
      have key : c.1 = d.1 := by
        rcases Nat.lt_trichotomy c.1 d.1 with hlt | heq | hgt
        · refine absurd ?_ c2
          have := h c.1
          rwa [Memory.get, if_pos rfl, Memory.get, if_neg hlt.ne', unlisted fun e he => hlt.trans (d3 e he)] at this
        · exact heq
        · refine absurd ?_ d2
          have := h d.1
          rw [Memory.get, if_neg hgt.ne', Memory.get, if_pos rfl, unlisted fun e he => hgt.trans (c3 e he)] at this
          exact this.symm
      have val : c.2 = d.2 := by simpa [Memory.get, key] using h c.1
      have tail : rest = rest' := by
        refine ih c4 d4 fun a => ?_
        by_cases ha : a = c.1
        · subst ha
          rw [unlisted c3, unlisted (key ▸ d3)]
        · have hd : d.1 ≠ a := fun e => ha (key ▸ e.symm)
          simpa [Memory.get, hd, show ¬ c.1 = a from fun e => ha e.symm] using h a
      rw [tail, Prod.ext key val]

/-! ### Single accesses -/

theorem memRead_ok {m : Memory} {a : Nat} (h : a < Config.memSize) : memRead m a = .ok (m.get a) := if_pos h

theorem memRead_error {m : Memory} {a : Nat} (h : Config.memSize ≤ a) : memRead m a = .error a := if_neg (by omega)

theorem memWrite_ok {m : Memory} {a : Nat} (h : a < Config.memSize) (v : Byte) : memWrite m a v = .ok (m.set a v) := if_pos h

theorem memWrite_error {m : Memory} {a : Nat} (h : Config.memSize ≤ a) (v : Byte) : memWrite m a v = .error a := if_neg (by omega)

/-! ### Runs of bytes (20_memory.md R53) -/

/-- All addresses in memory: the bytes, in order. -/
theorem memReadN_ok {m : Memory} {a n : Nat} (h : n = 0 ∨ a + n ≤ Config.memSize) :
    memReadN m a n = .ok ((List.range n).map fun j => m.get (a + j)) := by
  induction n generalizing a with
  | zero => rfl
  | succ n ih =>
    simp only [memReadN, memRead_ok (show a < Config.memSize by omega), ih (a := a + 1) (by omega),
      List.range_succ_eq_map, List.map_cons, List.map_map, Nat.add_zero]
    congr 2
    apply List.map_congr_left
    intro j _
    simp only [Function.comp]
    congr 1
    omega

/-- Some address above 0xFFF: the lowest such one. -/
theorem memReadN_error {m : Memory} {a n : Nat} (h0 : n ≠ 0) (h : Config.memSize < a + n) :
    memReadN m a n = .error (max a Config.memSize) := by
  induction n generalizing a with
  | zero => exact absurd rfl h0
  | succ n ih =>
    by_cases ha : Config.memSize ≤ a
    · simp [memReadN, memRead_error ha, max_eq_left ha]
    · simp only [memReadN, memRead_ok (show a < Config.memSize by omega), ih (a := a + 1) (by omega) (by omega)]
      congr 1
      omega

/-- All addresses in memory: each byte at its address, every other byte as before, and the canonical form kept. -/
theorem memWriteN_ok (m : Memory) (a : Nat) (bs : List Byte) (h : bs = [] ∨ a + bs.length ≤ Config.memSize) :
    ∃ m', memWriteN m a bs = .ok m' ∧ (m.wf = true → m'.wf = true) ∧
      ∀ b, m'.get b = if a ≤ b ∧ b < a + bs.length then bs.getD (b - a) 0 else m.get b := by
  induction bs generalizing a m with
  | nil => exact ⟨m, rfl, id, fun b => by rw [if_neg (by simp)]⟩
  | cons c rest ih =>
    have hle : a + (rest.length + 1) ≤ Config.memSize := by simpa using h
    obtain ⟨m', h1, h2, h3⟩ := ih (m.set a c) (a + 1) (.inr (by omega))
    refine ⟨m', by simp [memWriteN, memWrite_ok (show a < Config.memSize by omega), h1],
      fun hm => h2 (Memory.wf_set hm (by omega) c), fun b => ?_⟩
    rw [h3, Memory.get_set]
    simp only [List.length_cons]
    rcases Nat.lt_trichotomy b a with hb | rfl | hb
    · rw [if_neg (by omega), if_neg (by omega), if_neg (by omega)]
    · rw [if_neg (by omega), if_pos rfl, if_pos (by omega)]
      simp
    · by_cases hb' : b < a + 1 + rest.length
      · rw [if_pos (by omega), if_pos (by omega), show b - a = (b - (a + 1)) + 1 by omega, List.getD_cons_succ]
      · rw [if_neg (by omega), if_neg (by omega), if_neg (by omega)]

/-- Some address above 0xFFF: the lowest such one, and no memory. -/
theorem memWriteN_error (m : Memory) {a : Nat} {bs : List Byte} (h0 : bs ≠ []) (h : Config.memSize < a + bs.length) :
    memWriteN m a bs = .error (max a Config.memSize) := by
  induction bs generalizing a m with
  | nil => exact absurd rfl h0
  | cons c rest ih =>
    simp only [List.length_cons] at h
    by_cases ha : Config.memSize ≤ a
    · simp [memWriteN, memWrite_error ha, max_eq_left ha]
    · have hr : rest ≠ [] := by
        rintro rfl
        simp only [List.length_nil] at h
        omega
      simp only [memWriteN, memWrite_ok (show a < Config.memSize by omega), ih _ hr (a := a + 1) (by omega)]
      congr 1
      omega

end Sys2Proof.Machine
end

