-- ==== Sys2Proof/Laws/Raster.lean ====
section
/-! SUPPORT. The rasterizer pixel by pixel: what one inverted pixel, one sprite row and a whole sprite do to every pixel and to the
collision flag (44_display.md R131). With 8 columns on a width of 64 and at most 32 rows on a height of 32, no two sprite bits meet. -/

namespace Sys2Proof.Machine

/-! ### One pixel -/

theorem Display.get_blank (x y : Nat) : Display.blank.get x y = false := by
  simp [Display.get, Display.blank]

/-- Coordinates are reduced (10_state.md R19). -/
theorem Display.get_congr (d : Display) {x x' y y' : Nat} (hx : x % Config.W = x' % Config.W) (hy : y % Config.H = y' % Config.H) :
    d.get x y = d.get x' y' := by
  simp only [Display.get, hx, hy]

theorem Display.get_flip (d : Display) (x y px py : Nat) :
    (d.flip x y).get px py =
      if px % Config.W = x % Config.W ∧ py % Config.H = y % Config.H then !d.get x y else d.get px py := by
  simp only [Display.get, Display.flip, Vector.getElem_set]
  by_cases hy : y % Config.H = py % Config.H
  · by_cases hx : x % Config.W = px % Config.W
    · simp [hx, hy]
    · simp [hx, hy, show ¬ px % Config.W = x % Config.W from fun e => hx e.symm]
  · simp [hy, show ¬ py % Config.H = y % Config.H from fun e => hy e.symm]

/-- Displays with the same pixels are the same. -/
theorem Display.ext_get {d e : Display} (h : ∀ x < Config.W, ∀ y < Config.H, d.get x y = e.get x y) : d = e := by
  apply Vector.ext
  intro y hy
  apply Vector.ext
  intro x hx
  have := h x hx y hy
  simpa only [Display.get, Nat.mod_eq_of_lt hx, Nat.mod_eq_of_lt hy] using this

/-! ### One row -/

/-- A sprite row at column `ox` has a 1, among the columns `cs`, on the pixel column `px`. -/
def RowHits (cs : List Nat) (ox : Nat) (row : Byte) (px : Nat) : Prop :=
  ∃ c ∈ cs, px % Config.W = (ox + c) % Config.W ∧ spriteBit row c = true

/-- What the columns `cs` of a sprite row do to every pixel, and when they set the collision flag. -/
theorem blitCols_spec (ox y : Nat) (row : Byte) (cs : List Nat) (hlt : ∀ c ∈ cs, c < 8) (hnd : cs.Nodup) (b : Blit) :
    let b' := cs.foldl (fun b c => blitPixel (ox + c) y (spriteBit row c) b) b
    (∀ px py, py % Config.H = y % Config.H ∧ RowHits cs ox row px → b'.disp.get px py = !b.disp.get px py) ∧
    (∀ px py, ¬ (py % Config.H = y % Config.H ∧ RowHits cs ox row px) → b'.disp.get px py = b.disp.get px py) ∧
    (b'.collision = true ↔
      b.collision = true ∨ ∃ c ∈ cs, spriteBit row c = true ∧ b.disp.get (ox + c) y = true) := by
  induction cs generalizing b with
  | nil => simp [RowHits]
  | cons c cs ih =>
    obtain ⟨hc, hnd'⟩ := List.nodup_cons.mp hnd
    have hc8 : c < 8 := hlt c (by simp)
    have apart : ∀ d ∈ cs, (ox + d) % Config.W ≠ (ox + c) % Config.W := by
      intro d hd e
      have hd8 := hlt d (by simp [hd])
      have : d = c := by simp only [Config.W] at e; omega
      exact hc (this ▸ hd)
    obtain ⟨ih1, ih2, ih3⟩ := ih (fun d hd => hlt d (by simp [hd])) hnd' (blitPixel (ox + c) y (spriteBit row c) b)
    have hits : ∀ px, RowHits (c :: cs) ox row px ↔
        (px % Config.W = (ox + c) % Config.W ∧ spriteBit row c = true) ∨ RowHits cs ox row px := by
      intro px; simp [RowHits]
    have disjoint : ∀ px, px % Config.W = (ox + c) % Config.W → ¬ RowHits cs ox row px := by
      rintro px hp ⟨d, hd, he, -⟩
      exact apart d hd (he.symm.trans hp)
    cases hb : spriteBit row c with
    | false =>
      simp only [hb, blitPixel, Bool.false_eq_true, if_false] at ih1 ih2 ih3
      refine ⟨fun px py h => ?_, fun px py h => ?_, ?_⟩
      · rw [hits] at h
        simp only [hb, Bool.false_eq_true, and_false, false_or] at h
        simpa [blitPixel, hb] using ih1 px py h
      · rw [hits] at h
        simp only [hb, Bool.false_eq_true, and_false, false_or] at h
        simpa [blitPixel, hb] using ih2 px py h
      · simpa [blitPixel, hb] using ih3
    | true =>
      simp only [hb, blitPixel, if_true] at ih1 ih2 ih3
      refine ⟨fun px py h => ?_, fun px py h => ?_, ?_⟩
      · rw [hits] at h
        obtain ⟨hy, ⟨hp, -⟩ | h⟩ := h
        · have := ih2 px py fun h => disjoint px hp h.2
          rw [Display.get_flip, if_pos ⟨hp, hy⟩] at this
          simpa [blitPixel, hb] using this.trans (congrArg (! ·) (Display.get_congr b.disp hp.symm hy.symm))
        · have := ih1 px py ⟨hy, h⟩
          rw [Display.get_flip, if_neg fun e => disjoint px e.1 h] at this
          simpa [blitPixel, hb] using this
      · rw [hits] at h
        have := ih2 px py fun e => h ⟨e.1, .inr e.2⟩
        rw [Display.get_flip, if_neg fun e => h ⟨e.2, .inl ⟨e.1, hb⟩⟩] at this
        simpa [blitPixel, hb] using this
      · simp only [List.foldl_cons, blitPixel, hb, if_true, ih3, Bool.or_eq_true, List.mem_cons, exists_eq_or_imp,
          true_and, or_assoc]
        refine or_congr_right (or_congr_right (exists_congr fun d => and_congr_right fun hd => and_congr_right fun _ => ?_))
        rw [Display.get_flip, if_neg fun e => apart d hd e.1]

/-- What a sprite row does to every pixel, and when it sets the collision flag. -/
theorem blitRow_spec (ox y : Nat) (row : Byte) (b : Blit) :
    (∀ px py, py % Config.H = y % Config.H ∧ RowHits (List.range 8) ox row px →
      (blitRow ox y row b).disp.get px py = !b.disp.get px py) ∧
    (∀ px py, ¬ (py % Config.H = y % Config.H ∧ RowHits (List.range 8) ox row px) →
      (blitRow ox y row b).disp.get px py = b.disp.get px py) ∧
    ((blitRow ox y row b).collision = true ↔
      b.collision = true ∨ ∃ c ∈ List.range 8, spriteBit row c = true ∧ b.disp.get (ox + c) y = true) :=
  blitCols_spec ox y row (List.range 8) (by simp) (List.nodup_range) b

/-! ### The whole sprite -/

/-- A sprite at the origin `(ox, oy)` has a 1 on the pixel `(px, py)`. -/
def SpriteHits (ox oy : Nat) (rows : List Byte) (px py : Nat) : Prop :=
  ∃ r, ∃ h : r < rows.length, py % Config.H = (oy + r) % Config.H ∧ RowHits (List.range 8) ox rows[r] px

theorem SpriteHits_cons {ox oy : Nat} {row : Byte} {rows : List Byte} {px py : Nat} :
    SpriteHits ox oy (row :: rows) px py ↔
      (py % Config.H = oy % Config.H ∧ RowHits (List.range 8) ox row px) ∨ SpriteHits ox (oy + 1) rows px py := by
  constructor
  · rintro ⟨r, hr, hy, hx⟩
    cases r with
    | zero => exact .inl ⟨hy, hx⟩
    | succ r =>
      refine .inr ⟨r, by simpa using hr, ?_, by simpa using hx⟩
      rw [hy]
      congr 1
      omega
  · rintro (⟨hy, hx⟩ | ⟨r, hr, hy, hx⟩)
    · exact ⟨0, by simp, hy, hx⟩
    · refine ⟨r + 1, by simpa using hr, ?_, by simpa using hx⟩
      rw [hy]
      congr 1
      omega

/-- What a sprite of at most `H` rows does to every pixel, and when it sets the collision flag: some 1 of it fell on a pixel that was
on. -/
theorem blitRows_spec (ox oy : Nat) (rows : List Byte) (hlen : rows.length ≤ Config.H) (b : Blit) :
    (∀ px py, SpriteHits ox oy rows px py → (blitRows ox oy rows b).disp.get px py = !b.disp.get px py) ∧
    (∀ px py, ¬ SpriteHits ox oy rows px py → (blitRows ox oy rows b).disp.get px py = b.disp.get px py) ∧
    ((blitRows ox oy rows b).collision = true ↔
      b.collision = true ∨ ∃ px py, SpriteHits ox oy rows px py ∧ b.disp.get px py = true) := by
  induction rows generalizing oy b with
  | nil => simp [blitRows, SpriteHits]
  | cons row rows ih =>
    simp only [List.length_cons] at hlen
    obtain ⟨ih1, ih2, ih3⟩ := ih (oy + 1) (by omega) (blitRow ox oy row b)
    obtain ⟨r1, r2, r3⟩ := blitRow_spec ox oy row b
    have disjoint : ∀ px py, py % Config.H = oy % Config.H → ¬ SpriteHits ox (oy + 1) rows px py := by
      rintro px py hp ⟨r, hr, hy, -⟩
      rw [hp] at hy
      simp only [Config.H] at hy hlen
      omega
    refine ⟨fun px py h => ?_, fun px py h => ?_, ?_⟩
    · rcases SpriteHits_cons.mp h with h | h
      · rw [blitRows, ih2 px py (disjoint px py h.1), r1 px py h]
      · rw [blitRows, ih1 px py h, r2 px py fun e => disjoint px py e.1 h]
    · rw [SpriteHits_cons, not_or] at h
      rw [blitRows, ih2 px py h.2, r2 px py h.1]
    · rw [blitRows, ih3, r3, or_assoc]
      refine or_congr_right ⟨?_, ?_⟩
      · rintro (⟨c, hc, hb, hon⟩ | ⟨px, py, h, hon⟩)
        · exact ⟨ox + c, oy, SpriteHits_cons.mpr (.inl ⟨rfl, c, hc, rfl, hb⟩), hon⟩
        · refine ⟨px, py, SpriteHits_cons.mpr (.inr h), ?_⟩
          rwa [r2 px py fun e => disjoint px py e.1 h] at hon
      · rintro ⟨px, py, h, hon⟩
        rcases SpriteHits_cons.mp h with ⟨hy, c, hc, hx, hb⟩ | h
        · exact .inl ⟨c, hc, hb, by rwa [Display.get_congr b.disp hx.symm hy.symm]⟩
        · exact .inr ⟨px, py, h, by rwa [r2 px py fun e => disjoint px py e.1 h]⟩

end Sys2Proof.Machine
end

