-- ==== Sys2Proof/Laws/State.lean ====
section
/-! SUPPORT. One lemma per field of State and per update of it: what the field is afterwards. -/

namespace Sys2Proof.Machine

variable (s : State)

/-! ### `V[r] <- b` -/

@[simp] theorem State.writeV_v (r : Reg) (b : Byte) : (s.writeV r b).v = s.v.set r.val b := rfl
@[simp] theorem State.writeV_i (r : Reg) (b : Byte) : (s.writeV r b).i = s.i := rfl
@[simp] theorem State.writeV_pc (r : Reg) (b : Byte) : (s.writeV r b).pc = s.pc := rfl
@[simp] theorem State.writeV_sp (r : Reg) (b : Byte) : (s.writeV r b).sp = s.sp := rfl
@[simp] theorem State.writeV_stack (r : Reg) (b : Byte) : (s.writeV r b).stack = s.stack := rfl
@[simp] theorem State.writeV_dt (r : Reg) (b : Byte) : (s.writeV r b).dt = s.dt := rfl
@[simp] theorem State.writeV_st (r : Reg) (b : Byte) : (s.writeV r b).st = s.st := rfl
@[simp] theorem State.writeV_mem (r : Reg) (b : Byte) : (s.writeV r b).mem = s.mem := rfl
@[simp] theorem State.writeV_disp (r : Reg) (b : Byte) : (s.writeV r b).disp = s.disp := rfl
@[simp] theorem State.writeV_key (r : Reg) (b : Byte) : (s.writeV r b).key = s.key := rfl
@[simp] theorem State.writeV_await (r : Reg) (b : Byte) : (s.writeV r b).await = s.await := rfl
@[simp] theorem State.writeV_fault (r : Reg) (b : Byte) : (s.writeV r b).fault = s.fault := rfl
@[simp] theorem State.writeV_rndDraws (r : Reg) (b : Byte) : (s.writeV r b).rndDraws = s.rndDraws := rfl

/-! ### `pc <- t` -/

@[simp] theorem State.goto_v (t : Word) : (s.goto t).v = s.v := rfl
@[simp] theorem State.goto_i (t : Word) : (s.goto t).i = s.i := rfl
@[simp] theorem State.goto_pc (t : Word) : (s.goto t).pc = t := rfl
@[simp] theorem State.goto_sp (t : Word) : (s.goto t).sp = s.sp := rfl
@[simp] theorem State.goto_stack (t : Word) : (s.goto t).stack = s.stack := rfl
@[simp] theorem State.goto_dt (t : Word) : (s.goto t).dt = s.dt := rfl
@[simp] theorem State.goto_st (t : Word) : (s.goto t).st = s.st := rfl
@[simp] theorem State.goto_mem (t : Word) : (s.goto t).mem = s.mem := rfl
@[simp] theorem State.goto_disp (t : Word) : (s.goto t).disp = s.disp := rfl
@[simp] theorem State.goto_key (t : Word) : (s.goto t).key = s.key := rfl
@[simp] theorem State.goto_await (t : Word) : (s.goto t).await = s.await := rfl
@[simp] theorem State.goto_fault (t : Word) : (s.goto t).fault = s.fault := rfl
@[simp] theorem State.goto_rndDraws (t : Word) : (s.goto t).rndDraws = s.rndDraws := rfl

/-! ### `pc <- next` -/

@[simp] theorem State.advance_v : (s.advance).v = s.v := rfl
@[simp] theorem State.advance_i : (s.advance).i = s.i := rfl
@[simp] theorem State.advance_pc : (s.advance).pc = s.pc + 2 := rfl
@[simp] theorem State.advance_sp : (s.advance).sp = s.sp := rfl
@[simp] theorem State.advance_stack : (s.advance).stack = s.stack := rfl
@[simp] theorem State.advance_dt : (s.advance).dt = s.dt := rfl
@[simp] theorem State.advance_st : (s.advance).st = s.st := rfl
@[simp] theorem State.advance_mem : (s.advance).mem = s.mem := rfl
@[simp] theorem State.advance_disp : (s.advance).disp = s.disp := rfl
@[simp] theorem State.advance_key : (s.advance).key = s.key := rfl
@[simp] theorem State.advance_await : (s.advance).await = s.await := rfl
@[simp] theorem State.advance_fault : (s.advance).fault = s.fault := rfl
@[simp] theorem State.advance_rndDraws : (s.advance).rndDraws = s.rndDraws := rfl

/-! ### a conditional skip -/

@[simp] theorem State.skipIf_v (c : Bool) : (s.skipIf c).v = s.v := rfl
@[simp] theorem State.skipIf_i (c : Bool) : (s.skipIf c).i = s.i := rfl
@[simp] theorem State.skipIf_pc (c : Bool) : (s.skipIf c).pc = if c then s.pc + 4 else s.pc + 2 := rfl
@[simp] theorem State.skipIf_sp (c : Bool) : (s.skipIf c).sp = s.sp := rfl
@[simp] theorem State.skipIf_stack (c : Bool) : (s.skipIf c).stack = s.stack := rfl
@[simp] theorem State.skipIf_dt (c : Bool) : (s.skipIf c).dt = s.dt := rfl
@[simp] theorem State.skipIf_st (c : Bool) : (s.skipIf c).st = s.st := rfl
@[simp] theorem State.skipIf_mem (c : Bool) : (s.skipIf c).mem = s.mem := rfl
@[simp] theorem State.skipIf_disp (c : Bool) : (s.skipIf c).disp = s.disp := rfl
@[simp] theorem State.skipIf_key (c : Bool) : (s.skipIf c).key = s.key := rfl
@[simp] theorem State.skipIf_await (c : Bool) : (s.skipIf c).await = s.await := rfl
@[simp] theorem State.skipIf_fault (c : Bool) : (s.skipIf c).fault = s.fault := rfl
@[simp] theorem State.skipIf_rndDraws (c : Bool) : (s.skipIf c).rndDraws = s.rndDraws := rfl

/-! ### result and flag -/

@[simp] theorem State.writeWithFlag_v (x : Reg) (b : Byte) (f : Bool) : (s.writeWithFlag x b f).v = (s.v.set x.val b).set Reg.flag.val (flagByte f) := rfl
@[simp] theorem State.writeWithFlag_i (x : Reg) (b : Byte) (f : Bool) : (s.writeWithFlag x b f).i = s.i := rfl
@[simp] theorem State.writeWithFlag_pc (x : Reg) (b : Byte) (f : Bool) : (s.writeWithFlag x b f).pc = s.pc := rfl
@[simp] theorem State.writeWithFlag_sp (x : Reg) (b : Byte) (f : Bool) : (s.writeWithFlag x b f).sp = s.sp := rfl
@[simp] theorem State.writeWithFlag_stack (x : Reg) (b : Byte) (f : Bool) : (s.writeWithFlag x b f).stack = s.stack := rfl
@[simp] theorem State.writeWithFlag_dt (x : Reg) (b : Byte) (f : Bool) : (s.writeWithFlag x b f).dt = s.dt := rfl
@[simp] theorem State.writeWithFlag_st (x : Reg) (b : Byte) (f : Bool) : (s.writeWithFlag x b f).st = s.st := rfl
@[simp] theorem State.writeWithFlag_mem (x : Reg) (b : Byte) (f : Bool) : (s.writeWithFlag x b f).mem = s.mem := rfl
@[simp] theorem State.writeWithFlag_disp (x : Reg) (b : Byte) (f : Bool) : (s.writeWithFlag x b f).disp = s.disp := rfl
@[simp] theorem State.writeWithFlag_key (x : Reg) (b : Byte) (f : Bool) : (s.writeWithFlag x b f).key = s.key := rfl
@[simp] theorem State.writeWithFlag_await (x : Reg) (b : Byte) (f : Bool) : (s.writeWithFlag x b f).await = s.await := rfl
@[simp] theorem State.writeWithFlag_fault (x : Reg) (b : Byte) (f : Bool) : (s.writeWithFlag x b f).fault = s.fault := rfl
@[simp] theorem State.writeWithFlag_rndDraws (x : Reg) (b : Byte) (f : Bool) : (s.writeWithFlag x b f).rndDraws = s.rndDraws := rfl

/-! ### Reading a register after a write -/

theorem State.readV_writeV (x r : Reg) (b : Byte) : (s.writeV x b).readV r = if r = x then b else s.readV r := by
  simp only [State.readV, State.writeV, Vector.getElem_set, Fin.ext_iff, eq_comm]

theorem State.readV_writeWithFlag (x r : Reg) (b : Byte) (f : Bool) :
    (s.writeWithFlag x b f).readV r = if r = Reg.flag then flagByte f else if r = x then b else s.readV r := by
  simp only [State.writeWithFlag, State.readV_writeV]

@[simp] theorem State.readV_goto (t : Word) (r : Reg) : (s.goto t).readV r = s.readV r := rfl

@[simp] theorem State.readV_advance (r : Reg) : s.advance.readV r = s.readV r := rfl

@[simp] theorem State.readV_skipIf (c : Bool) (r : Reg) : (s.skipIf c).readV r = s.readV r := rfl

/-- Registers are equal when every one reads the same. -/
theorem State.v_ext {s t : State} (h : ∀ r, t.readV r = s.readV r) : t.v = s.v :=
  Vector.ext fun j hj => h ⟨j, hj⟩

end Sys2Proof.Machine
end

