-- ==== Sys2Proof/Laws/Ops.lean ====
section
/-! SUPPORT. One lemma per shared operation, which says all it can do: push and pop, going on after an access, storing at the index,
reading at the index, the key skip. -/

namespace Sys2Proof.Machine

variable (s : State)

/-! ### The stack -/

theorem State.push_eq_some (t : Word) (h : s.sp.val < 16) :
    s.push t = some { s with stack := s.stack.set s.sp.val t, sp := ⟨s.sp.val + 1, by omega⟩ } := dif_pos h

theorem State.push_eq_none (t : Word) (h : s.sp.val = 16) : s.push t = none := dif_neg (by simp [h])

theorem State.pop_eq_some (h : 0 < s.sp.val) :
    s.pop = some (s.stack[s.sp.val - 1], { s with sp := ⟨s.sp.val - 1, by omega⟩ }) := dif_pos h

theorem State.pop_eq_none (h : s.sp.val = 0) : s.pop = none := dif_neg (by omega)

/-- All a push can do. -/
theorem State.push_cases (t : Word) :
    (s.sp.val = 16 ∧ s.push t = none) ∨
    ∃ h : s.sp.val < 16, s.push t = some { s with stack := s.stack.set s.sp.val t, sp := ⟨s.sp.val + 1, by omega⟩ } := by
  by_cases h : s.sp.val < 16
  · exact .inr ⟨h, s.push_eq_some t h⟩
  · exact .inl ⟨by omega, s.push_eq_none t (by omega)⟩

/-- All a pop can do. -/
theorem State.pop_cases :
    (s.sp.val = 0 ∧ s.pop = none) ∨
    ∃ _ : 0 < s.sp.val, s.pop = some (s.stack[s.sp.val - 1], { s with sp := ⟨s.sp.val - 1, by omega⟩ }) := by
  by_cases h : 0 < s.sp.val
  · exact .inr ⟨h, s.pop_eq_some h⟩
  · exact .inl ⟨by omega, s.pop_eq_none (by omega)⟩

/-! ### Accesses -/

@[simp] theorem State.onAccess_ok {α : Type} (a : α) (k : α → Result) : s.onAccess (.ok a) k = k a := rfl

@[simp] theorem State.onAccess_error {α : Type} (e : Nat) (k : α → Result) :
    s.onAccess (.error e) k = s.raise .addressFault (BitVec.ofNat 16 e) := rfl

theorem ofNat_max_eq_lowestOffending (a : Word) : BitVec.ofNat 16 (max a.toNat Config.memSize) = lowestOffending a := by
  apply BitVec.eq_of_toNat_eq
  simp only [lowestOffending, Config.memSize, BitVec.toNat_ofNat]
  split <;> simp <;> omega

/-- All a store at the index can do: raise `AddressFault` and nothing else, or change memory and move on. -/
theorem State.storeAtIndex_ok (bs : List Byte) (h : s.i.toNat + bs.length ≤ 0x1000) :
    ∃ m, s.storeAtIndex bs = .next { s with mem := m }.advance ∧ (s.mem.wf = true → m.wf = true) ∧
      ∀ a, m.get a = if s.i.toNat ≤ a ∧ a < s.i.toNat + bs.length then bs.getD (a - s.i.toNat) 0 else s.mem.get a := by
  obtain ⟨m, h1, h2, h3⟩ := memWriteN_ok s.mem s.i.toNat bs (.inr h)
  exact ⟨m, by simp [State.storeAtIndex, State.indexAddr, h1], h2, h3⟩

theorem State.storeAtIndex_error (bs : List Byte) (h0 : bs ≠ []) (h : 0x1000 < s.i.toNat + bs.length) :
    s.storeAtIndex bs = s.raise .addressFault (lowestOffending s.i) := by
  rw [State.storeAtIndex, State.indexAddr, memWriteN_error s.mem h0 h, State.onAccess_error, ofNat_max_eq_lowestOffending]

/-- The bytes an instruction reads at the index. -/
def State.bytesAtIndex (n : Nat) : List Byte := (List.range n).map fun j => s.mem.get (s.i.toNat + j)

@[simp] theorem State.length_bytesAtIndex (n : Nat) : (s.bytesAtIndex n).length = n := by simp [State.bytesAtIndex]

theorem State.bytesAtIndex_getD {n j : Nat} (h : j < n) (d : Byte) : (s.bytesAtIndex n).getD j d = s.mem.get (s.i.toNat + j) := by
  simp [State.bytesAtIndex, List.getD_eq_getElem?_getD, h]

theorem State.readAtIndex_ok (n : Nat) (k : List Byte → Result) (h : n = 0 ∨ s.i.toNat + n ≤ 0x1000) :
    s.onAccess (memReadN s.mem s.indexAddr n) k = k (s.bytesAtIndex n) := by
  rw [State.indexAddr, memReadN_ok h]
  rfl

theorem State.readAtIndex_error (n : Nat) (k : List Byte → Result) (h0 : n ≠ 0) (h : 0x1000 < s.i.toNat + n) :
    s.onAccess (memReadN s.mem s.indexAddr n) k = s.raise .addressFault (lowestOffending s.i) := by
  rw [State.indexAddr, memReadN_error h0 h, State.onAccess_error, ofNat_max_eq_lowestOffending]

/-! ### Register ranges -/

theorem State.length_regsUpTo (x : Reg) : (s.regsUpTo x).length = x.val + 1 := by
  simp [State.regsUpTo]

theorem State.regsUpTo_getD (x : Reg) (j : Reg) (h : j.val ≤ x.val) : (s.regsUpTo x).getD j.val 0 = s.readV j := by
  have h' : j.val < x.val + 1 := by omega
  simp [State.regsUpTo, State.readV, List.getD_eq_getElem?_getD, h']

theorem loadRegs_getElem (v : Vector Byte 16) (bs : List Byte) (j : Reg) : (loadRegs v bs)[j.val] = bs.getD j.val v[j.val] := by
  simp [loadRegs]

/-! ### Key skips -/

/-- All a key skip can do. -/
theorem State.skipOnKey_cases (x : Reg) (w : Bool) :
    (∃ k : KeyIdx, (s.readV x).toNat = k.val ∧ s.skipOnKey x w = .next (s.skipIf (s.key[k.val] == w))) ∨
    (15 < (s.readV x).toNat ∧ s.skipOnKey x w = s.raise .keyIndexFault (zextByte (s.readV x))) := by
  by_cases h : (s.readV x).toNat < 16
  · exact .inl ⟨⟨_, h⟩, rfl, dif_pos h⟩
  · exact .inr ⟨by omega, dif_neg h⟩

end Sys2Proof.Machine
end

