-- ==== Sys2Proof/Laws/Step.lean ====
section
/-! SUPPORT. The cycle: fetching, and every way a `STEP` can go (40_step_cycle.md R80). -/

namespace Sys2Proof.Machine

theorem fetchWord_ok {m : Memory} {a : Nat} (h : a + 1 < Config.memSize) :
    fetchWord m a = .ok (wordOfBytes (m.get a) (m.get (a + 1))) := by
  simp [fetchWord, memRead_ok (show a < Config.memSize by omega), memRead_ok h]

theorem fetchWord_error {m : Memory} {a : Nat} (h : Config.memSize ≤ a + 1) :
    fetchWord m a = .error (max a Config.memSize) := by
  by_cases ha : Config.memSize ≤ a
  · simp [fetchWord, memRead_error ha, max_eq_left ha]
  · simp only [fetchWord, memRead_ok (show a < Config.memSize by omega), memRead_error h]
    congr 1
    omega

/-- Halted: nothing changes (40_step_cycle.md R80 step 1). -/
theorem cycle_of_fault (execute : Instr → State → Result) {s : State} {f : FaultRecord} (h : s.fault = some f) :
    cycle execute s = .next s := by
  simp [cycle, h]

/-- Suspended: nothing changes (R80 step 2). -/
theorem cycle_of_waiting (execute : Instr → State → Result) {s : State} {r : Reg} (h : s.await = .waiting r) :
    cycle execute s = .next s := by
  cases hf : s.fault <;> simp [cycle, h, hf]

/-- Ready: fetch, decode, execute (R80 steps 3 to 5). -/
theorem cycle_of_ready (execute : Instr → State → Result) {s : State} (hf : s.fault = none) (ha : s.await = .notWaiting) :
    cycle execute s = s.onAccess (fetchWord s.mem s.pc.toNat) (decodeAndExecute execute s) := by
  simp [cycle, hf, ha]

/-- Every way a `STEP` can go. -/
theorem cycle_cases (execute : Instr → State → Result) (s : State) :
    ((s.fault ≠ none ∨ ∃ r, s.await = .waiting r) ∧ cycle execute s = .next s) ∨
    s.fault = none ∧ s.await = .notWaiting ∧
      ((0xFFF ≤ s.pc.toNat ∧ cycle execute s = s.raise .addressFault (BitVec.ofNat 16 (max s.pc.toNat Config.memSize))) ∨
       s.pc.toNat ≤ 0xFFE ∧ ∃ op, op = wordOfBytes (s.mem.get s.pc.toNat) (s.mem.get (s.pc.toNat + 1)) ∧
        ((∃ e, decode op = .error e ∧ cycle execute s = s.raise .decodeFault op) ∨
         ∃ i, decode op = .ok i ∧ cycle execute s = execute i s)) := by
  cases hf : s.fault with
  | some f => exact .inl ⟨.inl (by simp), cycle_of_fault execute hf⟩
  | none =>
    cases ha : s.await with
    | waiting r => exact .inl ⟨.inr ⟨r, rfl⟩, cycle_of_waiting execute ha⟩
    | notWaiting =>
      refine .inr ⟨rfl, rfl, ?_⟩
      rw [cycle_of_ready execute hf ha]
      by_cases hpc : s.pc.toNat ≤ 0xFFE
      · right
        refine ⟨hpc, _, rfl, ?_⟩
        rw [fetchWord_ok (by simp only [Config.memSize]; omega)]
        cases hd : decode (wordOfBytes (s.mem.get s.pc.toNat) (s.mem.get (s.pc.toNat + 1))) with
        | error e => exact .inl ⟨e, rfl, by simp [State.onAccess, decodeAndExecute, hd]⟩
        | ok i => exact .inr ⟨i, rfl, by simp [State.onAccess, decodeAndExecute, hd]⟩
      · left
        rw [fetchWord_error (by simp only [Config.memSize]; omega)]
        exact ⟨by omega, rfl⟩

/-- On anything but random-and, the host's byte changes nothing. -/
theorem execWith_eq_exec {rnd : Byte} {i : Instr} (h : ∀ x kk, i ≠ .rnd x kk) (s : State) : execWith rnd i s = exec i s := by
  cases i <;> first | rfl | exact absurd rfl (h _ _)

end Sys2Proof.Machine
end

