-- ==== Sys2Proof/Laws/Exec.lean ====
section
/-! SUPPORT. What the instructions that can fault answer, case by case, and the two ways any instruction can end. -/

namespace Sys2Proof.Machine

variable (s : State)

/-! ### return and call (41_flow.md R90, R92) -/

theorem exec_ret_of_pos (h : 0 < s.sp.val) :
    exec .ret s = .next (State.goto { s with sp := ⟨s.sp.val - 1, by omega⟩ } s.stack[s.sp.val - 1]) := by
  simp only [exec, execRet, s.pop_eq_some h]

theorem exec_ret_of_empty (h : s.sp.val = 0) : exec .ret s = s.raise .stackUnderflow (encode .ret) := by
  simp only [exec, execRet, s.pop_eq_none h]

theorem exec_call_of_room (nnn : BitVec 12) (h : s.sp.val < 16) :
    exec (.call nnn) s = .next (State.goto
      { s with stack := s.stack.set s.sp.val (s.pc + 2), sp := ⟨s.sp.val + 1, by omega⟩ } (zextAddr nnn)) := by
  simp only [exec, execCall, s.push_eq_some _ h]

theorem exec_call_of_full (nnn : BitVec 12) (h : s.sp.val = 16) :
    exec (.call nnn) s = s.raise .stackOverflow (encode (.call nnn)) := by
  simp only [exec, execCall, s.push_eq_none _ h]

/-! ### Reading at the index: register-load and draw (43_index_memory.md R125, 44_display.md R131) -/

theorem exec_load_of_fits (x : Reg) (h : s.i.toNat + x.val ≤ 0xFFF) :
    exec (.load x) s = .next (State.advance { s with v := loadRegs s.v (s.bytesAtIndex (x.val + 1)) }) :=
  s.readAtIndex_ok (x.val + 1) _ (by omega)

theorem exec_load_of_crosses (x : Reg) (h : 0xFFF < s.i.toNat + x.val) :
    exec (.load x) s = s.raise .addressFault (lowestOffending s.i) :=
  s.readAtIndex_error (x.val + 1) _ (by omega) (by omega)

theorem exec_drw_of_fits (x y : Reg) (n : BitVec 4) (h : n = 0 ∨ s.i.toNat + n.toNat ≤ 0x1000) :
    exec (.drw x y n) s = .next (s.drawSprite x y (s.bytesAtIndex n.toNat)).advance :=
  s.readAtIndex_ok n.toNat _ (h.imp_left fun e => by simp [e])

theorem exec_drw_of_crosses (x y : Reg) (n : BitVec 4) (h0 : n ≠ 0) (h : 0x1000 < s.i.toNat + n.toNat) :
    exec (.drw x y n) s = s.raise .addressFault (lowestOffending s.i) :=
  s.readAtIndex_error n.toNat _ (fun e => h0 (BitVec.eq_of_toNat_eq (by simpa using e))) h

/-! ### The key skips (45_keys_timers.md R140, R141) -/

theorem exec_skp_of_key (x : Reg) (k : KeyIdx) (h : (s.readV x).toNat = k.val) :
    exec (.skp x) s = .next (s.skipIf (s.key[k.val] == true)) := by
  simp only [exec, execSkp, State.skipOnKey, h, k.isLt, dite_true]

theorem exec_sknp_of_key (x : Reg) (k : KeyIdx) (h : (s.readV x).toNat = k.val) :
    exec (.sknp x) s = .next (s.skipIf (s.key[k.val] == false)) := by
  simp only [exec, execSknp, State.skipOnKey, h, k.isLt, dite_true]

theorem exec_skp_of_bad (x : Reg) (h : 15 < (s.readV x).toNat) :
    exec (.skp x) s = s.raise .keyIndexFault (zextByte (s.readV x)) := dif_neg (by omega)

theorem exec_sknp_of_bad (x : Reg) (h : 15 < (s.readV x).toNat) :
    exec (.sknp x) s = s.raise .keyIndexFault (zextByte (s.readV x)) := dif_neg (by omega)

/-! ### The two ways an instruction can end -/

/-- Storing at the index either raises or goes on with the fault latch as it was. -/
theorem State.storeAtIndex_ends (bs : List Byte) (h : bs ≠ []) :
    (∃ c info, s.storeAtIndex bs = s.raise c info) ∨ ∃ t, s.storeAtIndex bs = .next t ∧ t.fault = s.fault := by
  by_cases hb : s.i.toNat + bs.length ≤ 0x1000
  · obtain ⟨m, h1, -, -⟩ := s.storeAtIndex_ok bs hb
    exact .inr ⟨_, h1, rfl⟩
  · exact .inl ⟨_, _, s.storeAtIndex_error bs h (by omega)⟩

/-- An instruction raises a fault, and that is all it does, or it completes with the fault latch as it was (60_exceptions.md R151). -/
theorem exec_ends (i : Instr) :
    (∃ c info, exec i s = s.raise c info) ∨ ∃ t, exec i s = .next t ∧ t.fault = s.fault := by
  cases i with
  | ret =>
    rcases Nat.eq_zero_or_pos s.sp.val with h | h
    · exact .inl ⟨_, _, exec_ret_of_empty s h⟩
    · exact .inr ⟨_, exec_ret_of_pos s h, rfl⟩
  | call nnn =>
    by_cases h : s.sp.val < 16
    · exact .inr ⟨_, exec_call_of_room s nnn h, rfl⟩
    · exact .inl ⟨_, _, exec_call_of_full s nnn (by omega)⟩
  | ldB x => exact s.storeAtIndex_ends _ (by simp [bcdDigits])
  | dump x => exact s.storeAtIndex_ends _ fun e => by simpa [e] using s.length_regsUpTo x
  | load x =>
    by_cases h : s.i.toNat + x.val ≤ 0xFFF
    · exact .inr ⟨_, exec_load_of_fits s x h, rfl⟩
    · exact .inl ⟨_, _, exec_load_of_crosses s x (by omega)⟩
  | drw x y n =>
    by_cases h : n = 0 ∨ s.i.toNat + n.toNat ≤ 0x1000
    · exact .inr ⟨_, exec_drw_of_fits s x y n h, rfl⟩
    · rw [not_or] at h
      exact .inl ⟨_, _, exec_drw_of_crosses s x y n h.1 (by omega)⟩
  | skp x =>
    rcases s.skipOnKey_cases x true with ⟨k, -, h⟩ | ⟨-, h⟩
    · exact .inr ⟨_, h, rfl⟩
    · exact .inl ⟨_, _, h⟩
  | sknp x =>
    rcases s.skipOnKey_cases x false with ⟨k, -, h⟩ | ⟨-, h⟩
    · exact .inr ⟨_, h, rfl⟩
    · exact .inl ⟨_, _, h⟩
  | _ => exact .inr ⟨_, rfl, rfl⟩

/-- The same with the host's byte. -/
theorem execWith_ends (rnd : Byte) (i : Instr) :
    (∃ c info, execWith rnd i s = s.raise c info) ∨ ∃ t, execWith rnd i s = .next t ∧ t.fault = s.fault := by
  by_cases h : ∃ x kk, i = .rnd x kk
  · obtain ⟨x, kk, rfl⟩ := h
    exact .inr ⟨_, rfl, rfl⟩
  · simp only [not_exists] at h
    rw [execWith_eq_exec fun x kk => h x kk]
    exact exec_ends s i

end Sys2Proof.Machine
end

