-- ==== Sys2Proof/Laws/PerInstr.lean ====
section
/-! SUPPORT. The family LegalWord, one lemma per instruction: the word an instruction encodes to is none of the illegal words of
30_encoding.md R65. -/

namespace Sys2Proof

/-- A word is well formed when its family is one that R65 does not name. -/
theorem wellFormedWord_of_family {w : Word} (h : family w ∉ ([0x0, 0x5, 0x8, 0x9, 0xE, 0xF] : List (BitVec 4))) :
    wellFormedWord w = true := by
  simp at h
  simp [wellFormedWord, exactOk, skipEqOk, aluOk, skipNeOk, keySkipOk, miscOk, h]

/-- Checks on a word of format A by its family alone. -/
theorem wellFormedWord_wordA {f : BitVec 4} (nnn : BitVec 12) (h : f ∉ ([0x0, 0x5, 0x8, 0x9, 0xE, 0xF] : List (BitVec 4))) :
    wellFormedWord (wordA f nnn) = true :=
  wellFormedWord_of_family (by rwa [family_wordA])

/-- Checks on a word of format I. -/
theorem wellFormedWord_wordI {f : BitVec 4} {kk : Byte} (x : Reg)
    (h : (f ∈ ([0x1, 0x2, 0x3, 0x4, 0x6, 0x7, 0xA, 0xB, 0xC, 0xD] : List (BitVec 4)) ∨
      f = 0xE ∧ kk ∈ ([0x9E, 0xA1] : List Byte)) ∨
      f = 0xF ∧ kk ∈ ([0x07, 0x0A, 0x15, 0x18, 0x1E, 0x29, 0x33, 0x55, 0x65] : List Byte)) :
    wellFormedWord (wordI f x kk) = true := by
  rcases h with (h | ⟨rfl, h⟩) | ⟨rfl, h⟩
  · apply wellFormedWord_of_family
    rw [family_wordI]
    revert f
    decide
  · simp [wellFormedWord, exactOk, skipEqOk, aluOk, skipNeOk, keySkipOk, miscOk, family_wordI, lowByte_wordI]
    simpa using h
  · simp [wellFormedWord, exactOk, skipEqOk, aluOk, skipNeOk, keySkipOk, miscOk, family_wordI, lowByte_wordI]
    simpa using h

/-- Checks on a word of format R or D. -/
theorem wellFormedWord_wordR {f n : BitVec 4} (x y : Reg)
    (h : (f = 0xD ∨ (f = 0x5 ∨ f = 0x9) ∧ n = 0) ∨
      f = 0x8 ∧ n ∈ ([0x0, 0x1, 0x2, 0x3, 0x4, 0x5, 0x6, 0x7, 0xE] : List (BitVec 4))) :
    wellFormedWord (wordR f x y n) = true := by
  rcases h with (rfl | ⟨rfl | rfl, rfl⟩) | ⟨rfl, h⟩
  · exact wellFormedWord_of_family (by rw [family_wordR]; decide)
  · simp [wellFormedWord, exactOk, skipEqOk, aluOk, skipNeOk, keySkipOk, miscOk, family_wordR, lowNibble_wordR]
  · simp [wellFormedWord, exactOk, skipEqOk, aluOk, skipNeOk, keySkipOk, miscOk, family_wordR, lowNibble_wordR]
  · have aluKey : (n = 0 ∨ n = 1 ∨ n = 2 ∨ n = 3 ∨ n = 4) ∨ n = 5 ∨ n = 6 ∨ n = 7 ∨ n = 14 := by
      simp only [List.mem_cons, List.not_mem_nil, or_false] at h
      tauto
    rcases aluKey with (rfl | rfl | rfl | rfl | rfl) | rfl | rfl | rfl | rfl <;>
      simp [wellFormedWord, exactOk, skipEqOk, aluOk, skipNeOk, keySkipOk, miscOk, family_wordR, lowNibble_wordR]

namespace Laws.LegalWord

/-- The encoded word is no illegal word. -/
def Statement (i : Instr) : Prop := wellFormedWord (encode i) = true

theorem cls : Statement (.cls) := by show wellFormedWord _ = true; decide

theorem ret : Statement (.ret) := by show wellFormedWord _ = true; decide

theorem jp (nnn : BitVec 12) : Statement (.jp nnn) := wellFormedWord_wordA nnn (by decide)

theorem call (nnn : BitVec 12) : Statement (.call nnn) := wellFormedWord_wordA nnn (by decide)

theorem seImm (x : Reg) (kk : Byte) : Statement (.seImm x kk) := wellFormedWord_wordI x (by simp)

theorem sneImm (x : Reg) (kk : Byte) : Statement (.sneImm x kk) := wellFormedWord_wordI x (by simp)

theorem seReg (x y : Reg) : Statement (.seReg x y) := wellFormedWord_wordR x y (by simp)

theorem ldImm (x : Reg) (kk : Byte) : Statement (.ldImm x kk) := wellFormedWord_wordI x (by simp)

theorem addImm (x : Reg) (kk : Byte) : Statement (.addImm x kk) := wellFormedWord_wordI x (by simp)

theorem ldReg (x y : Reg) : Statement (.ldReg x y) := wellFormedWord_wordR x y (by simp)

theorem orReg (x y : Reg) : Statement (.orReg x y) := wellFormedWord_wordR x y (by simp)

theorem andReg (x y : Reg) : Statement (.andReg x y) := wellFormedWord_wordR x y (by simp)

theorem xorReg (x y : Reg) : Statement (.xorReg x y) := wellFormedWord_wordR x y (by simp)

theorem addReg (x y : Reg) : Statement (.addReg x y) := wellFormedWord_wordR x y (by simp)

theorem subReg (x y : Reg) : Statement (.subReg x y) := wellFormedWord_wordR x y (by simp)

theorem shr (x y : Reg) : Statement (.shr x y) := wellFormedWord_wordR x y (by simp)

theorem subn (x y : Reg) : Statement (.subn x y) := wellFormedWord_wordR x y (by simp)

theorem shl (x y : Reg) : Statement (.shl x y) := wellFormedWord_wordR x y (by simp)

theorem sneReg (x y : Reg) : Statement (.sneReg x y) := wellFormedWord_wordR x y (by simp)

theorem ldI (nnn : BitVec 12) : Statement (.ldI nnn) := wellFormedWord_wordA nnn (by decide)

theorem jpV0 (nnn : BitVec 12) : Statement (.jpV0 nnn) := wellFormedWord_wordA nnn (by decide)

theorem rnd (x : Reg) (kk : Byte) : Statement (.rnd x kk) := wellFormedWord_wordI x (by simp)

theorem drw (x y : Reg) (n : BitVec 4) : Statement (.drw x y n) := wellFormedWord_wordR x y (by simp)

theorem skp (x : Reg) : Statement (.skp x) := wellFormedWord_wordI x (by simp)

theorem sknp (x : Reg) : Statement (.sknp x) := wellFormedWord_wordI x (by simp)

theorem ldVxDT (x : Reg) : Statement (.ldVxDT x) := wellFormedWord_wordI x (by simp)

theorem ldVxK (x : Reg) : Statement (.ldVxK x) := wellFormedWord_wordI x (by simp)

theorem ldDTVx (x : Reg) : Statement (.ldDTVx x) := wellFormedWord_wordI x (by simp)

theorem ldSTVx (x : Reg) : Statement (.ldSTVx x) := wellFormedWord_wordI x (by simp)

theorem addI (x : Reg) : Statement (.addI x) := wellFormedWord_wordI x (by simp)

theorem ldF (x : Reg) : Statement (.ldF x) := wellFormedWord_wordI x (by simp)

theorem ldB (x : Reg) : Statement (.ldB x) := wellFormedWord_wordI x (by simp)

theorem dump (x : Reg) : Statement (.dump x) := wellFormedWord_wordI x (by simp)

theorem load (x : Reg) : Statement (.load x) := wellFormedWord_wordI x (by simp)

end Laws.LegalWord

end Sys2Proof
end

