-- ==== Sys2Proof/Tests/Slice0.lean ====
section
/-! SUPPORT. Tests: words that are no instruction, words written out by hand from 30_encoding.md, one step per instruction with the
result the vectors of 95_test_vectors.md give (their names V-... stand in the comments), and for every statement with hypotheses a
witness that meets them. -/

namespace Sys2Proof.Tests

open Sys2Proof.Machine

set_option maxRecDepth 100000

/-! ### Small states and small questions -/

/-- The answer is a next state with a property. -/
def isNext (r : Result) (p : State → Bool) : Bool :=
  match r with
  | .next t => p t
  | .fault _ => false
  | .refused _ => false

theorem exists_next {r : Result} {p : State → Bool} (h : isNext r p = true) : ∃ t, r = .next t ∧ p t = true :=
  match r, h with
  | .next t, h => ⟨t, rfl, h⟩

/-- A state with the word `w` where it fetches next. -/
abbrev running (w : Nat) (s : State) : State := s.withFetchWord 16 w

/-- The state after reset with some registers set. -/
def regs (rs : List (Reg × Byte)) : State := rs.foldl (fun s r => s.writeV r.1 r.2) State.reset

/-- A state with bytes put into memory. -/
def poke (a : Nat) (bytes : List Byte) (s : State) : State := { s with mem := placeBytes s.mem a bytes }

/-- A state with another `I`, another `pc`, another `sp`. -/
def withI (a : Word) (s : State) : State := { s with i := a }
def withPc (a : Word) (s : State) : State := { s with pc := a }
def withSp (n : Fin 17) (s : State) : State := { s with sp := n }

/-- A step latches a fault and does nothing else. -/
def faults (s : State) (c : FaultCode) (info : Word) : Bool :=
  isNext (step s) fun t => t == { s with fault := some ⟨c, info, s.pc⟩ }

/-- These pixels are on and those are off. -/
def pixels (s : State) (on off : List (Nat × Nat)) : Bool :=
  on.all (fun p => s.disp.get p.1 p.2) && off.all (fun p => !s.disp.get p.1 p.2)

/-! ### Ill-formed words: each check of WellFormed.lean refuses one (30_encoding.md R65) -/

theorem test_wf_exact : exactOk 0x0123 = false ∧ wellFormedWord 0x0123 = false ∧ decode 0x0123 = .error (.unknown 0x0123) := by decide
theorem test_wf_skipEq : skipEqOk 0x5AB1 = false ∧ wellFormedWord 0x5AB1 = false ∧ decode 0x5AB1 = .error (.unknown 0x5AB1) := by decide
theorem test_wf_alu : aluOk 0x8AB8 = false ∧ wellFormedWord 0x8AB8 = false ∧ decode 0x8AB8 = .error (.unknown 0x8AB8) := by decide
theorem test_wf_skipNe : skipNeOk 0x9AB5 = false ∧ wellFormedWord 0x9AB5 = false ∧ decode 0x9AB5 = .error (.unknown 0x9AB5) := by decide
theorem test_wf_keySkip : keySkipOk 0xE300 = false ∧ wellFormedWord 0xE300 = false ∧ decode 0xE300 = .error (.unknown 0xE300) := by decide
theorem test_wf_misc : miscOk 0xF300 = false ∧ wellFormedWord 0xF300 = false ∧ decode 0xF300 = .error (.unknown 0xF300) := by decide

/-- The other illegal words of 95_test_vectors.md section 2.1. -/
theorem test_unknown_words :
    ([0x0000, 0x00E1, 0x8AB9, 0x8ABA, 0x8ABB, 0x8ABC, 0x8ABD, 0x8ABF, 0xE39F, 0xE3A0, 0xF375, 0xF385, 0xF3FF] : List Word).all
      (fun w => decide (decode w = .error (.unknown w)) && !wellFormedWord w) = true := by decide

/-- The rows of the opcode table, and no two of them fit one word. -/
theorem test_rows_disjoint :
    opcodeRows.length = 34 ∧ opcodeRows.Pairwise fun r q => (r.mask &&& q.mask) &&& (r.pattern ^^^ q.pattern) ≠ 0 := by decide

/-- Bytes: too few, and the rest after an instruction. -/
theorem test_decode_bytes :
    decodeBytes [0x12] = .error .truncated ∧ decodeBytes [0x12, 0x34, 0x56] = .ok (.jp 0x234, [0x56]) := by decide

/-! ### Words written out, one per instruction (30_encoding.md R61, R66; 95_test_vectors.md section 2.1) -/

theorem test_word_cls : decode 0b0000_0000_1110_0000 = .ok .cls := by decide
theorem test_word_ret : decode 0b0000_0000_1110_1110 = .ok .ret := by decide
theorem test_word_jp : decode 0b0001_1010_1011_1100 = .ok (.jp 0xABC) := by decide
theorem test_word_call : decode 0b0010_1010_1011_1100 = .ok (.call 0xABC) := by decide
theorem test_word_seImm : decode 0b0011_1010_0111_1111 = .ok (.seImm 0xA 0x7F) := by decide
theorem test_word_sneImm : decode 0b0100_1010_0111_1111 = .ok (.sneImm 0xA 0x7F) := by decide
theorem test_word_seReg : decode 0b0101_1010_1011_0000 = .ok (.seReg 0xA 0xB) := by decide
theorem test_word_ldImm : decode 0b0110_1010_0111_1111 = .ok (.ldImm 0xA 0x7F) := by decide
theorem test_word_addImm : decode 0b0111_1010_0111_1111 = .ok (.addImm 0xA 0x7F) := by decide
theorem test_word_ldReg : decode 0b1000_1010_1011_0000 = .ok (.ldReg 0xA 0xB) := by decide
theorem test_word_orReg : decode 0b1000_1010_1011_0001 = .ok (.orReg 0xA 0xB) := by decide
theorem test_word_andReg : decode 0b1000_1010_1011_0010 = .ok (.andReg 0xA 0xB) := by decide
theorem test_word_xorReg : decode 0b1000_1010_1011_0011 = .ok (.xorReg 0xA 0xB) := by decide
theorem test_word_addReg : decode 0b1000_1010_1011_0100 = .ok (.addReg 0xA 0xB) := by decide
theorem test_word_subReg : decode 0b1000_1010_1011_0101 = .ok (.subReg 0xA 0xB) := by decide
theorem test_word_shr : decode 0b1000_1010_1011_0110 = .ok (.shr 0xA 0xB) := by decide
theorem test_word_subn : decode 0b1000_1010_1011_0111 = .ok (.subn 0xA 0xB) := by decide
theorem test_word_shl : decode 0b1000_1010_1011_1110 = .ok (.shl 0xA 0xB) := by decide
theorem test_word_sneReg : decode 0b1001_1010_1011_0000 = .ok (.sneReg 0xA 0xB) := by decide
theorem test_word_ldI : decode 0b1010_0001_0010_0011 = .ok (.ldI 0x123) := by decide
theorem test_word_jpV0 : decode 0b1011_0001_0010_0011 = .ok (.jpV0 0x123) := by decide
theorem test_word_rnd : decode 0b1100_0011_0000_1111 = .ok (.rnd 3 0x0F) := by decide
theorem test_word_drw : decode 0b1101_0001_0010_0101 = .ok (.drw 1 2 5) := by decide
theorem test_word_skp : decode 0b1110_0011_1001_1110 = .ok (.skp 3) := by decide
theorem test_word_sknp : decode 0b1110_0011_1010_0001 = .ok (.sknp 3) := by decide
theorem test_word_ldVxDT : decode 0b1111_0011_0000_0111 = .ok (.ldVxDT 3) := by decide
theorem test_word_ldVxK : decode 0b1111_0011_0000_1010 = .ok (.ldVxK 3) := by decide
theorem test_word_ldDTVx : decode 0b1111_0011_0001_0101 = .ok (.ldDTVx 3) := by decide
theorem test_word_ldSTVx : decode 0b1111_0011_0001_1000 = .ok (.ldSTVx 3) := by decide
theorem test_word_addI : decode 0b1111_0011_0001_1110 = .ok (.addI 3) := by decide
theorem test_word_ldF : decode 0b1111_0011_0010_1001 = .ok (.ldF 3) := by decide
theorem test_word_ldB : decode 0b1111_0011_0011_0011 = .ok (.ldB 3) := by decide
theorem test_word_dump : decode 0b1111_0011_0101_0101 = .ok (.dump 3) := by decide
theorem test_word_load : decode 0b1111_0011_0110_0101 = .ok (.load 3) := by decide

/-- The host's numbering of bits, and where `withFetchWord` puts them: more significant byte first (20_memory.md R44). -/
theorem test_table_word :
    decodeTableWord 16 0x1234 = some (.jp 0x234) ∧ decodeTableWord 16 0x0000 = none ∧
    (running 0x1234 State.reset).byteAt 0x200 = 0x12 ∧ (running 0x1234 State.reset).byteAt 0x201 = 0x34 := by decide

/-! ### One step per instruction (95_test_vectors.md section 2.2: control transfer) -/

/-- V-FL1. -/
theorem test_jp : isNext (step (running 0x1234 State.reset)) (fun t => t.pc == 0x234) = true := by decide
/-- V-FL7. -/
theorem test_call : isNext (step (running 0x2300 (withSp 15 State.reset)))
    (fun t => t.stack[15] == 0x202 && t.sp == 16 && t.pc == 0x300) = true := by decide
/-- V-FL6. -/
theorem test_call_full : faults (running 0x2300 (withSp 16 State.reset)) .stackOverflow 0x2300 = true := by decide
/-- V-FL4. -/
theorem test_ret : isNext (step (running 0x00EE { withPc 0x20C (withSp 1 State.reset) with stack := State.reset.stack.set 0 0x204 }))
    (fun t => t.sp == 0 && t.pc == 0x204 && t.stack[0] == 0x204) = true := by decide
/-- V-FL5. -/
theorem test_ret_empty : faults (running 0x00EE State.reset) .stackUnderflow 0x00EE = true := by decide
/-- V-FL9, first step. -/
theorem test_jpV0 : isNext (step (running 0xBFFF (regs [(0, 0xFF)]))) (fun t => t.pc == 0x10FE) = true := by decide
/-- V-FL10, V-FL11. -/
theorem test_seImm : isNext (step (running 0x332A (regs [(3, 0x2A)]))) (fun t => t.pc == 0x204) = true ∧
    isNext (step (running 0x332B (regs [(3, 0x2A)]))) (fun t => t.pc == 0x202) = true := by decide
/-- V-FL12, V-FL13. -/
theorem test_sneImm : isNext (step (running 0x432A (regs [(3, 0x2A)]))) (fun t => t.pc == 0x202) = true ∧
    isNext (step (running 0x4300 (regs [(3, 0x2A)]))) (fun t => t.pc == 0x204) = true := by decide
/-- V-FL14, V-FL15. -/
theorem test_seReg : isNext (step (running 0x5120 (withPc 0x300 (regs [(1, 7), (2, 7)])))) (fun t => t.pc == 0x304) = true ∧
    isNext (step (running 0x5120 (withPc 0x300 (regs [(1, 7), (2, 8)])))) (fun t => t.pc == 0x302) = true := by decide
/-- V-FL16, V-FL17. -/
theorem test_sneReg : isNext (step (running 0x9120 (withPc 0x300 (regs [(1, 7), (2, 8)])))) (fun t => t.pc == 0x304) = true ∧
    isNext (step (running 0x9110 (withPc 0x300 (regs [(1, 7)])))) (fun t => t.pc == 0x302) = true := by decide
/-- V-FL18, V-FL19: an odd `pc`, and the last two bytes of memory. -/
theorem test_fetch_edges : isNext (step (poke 0x201 [0x12, 0x05] (withPc 0x201 State.reset))) (fun t => t.pc == 0x205) = true ∧
    isNext (step (poke 0xFFE [0x60, 0x01] (withPc 0xFFE State.reset))) (fun t => t.readV 0 == 1 && t.pc == 0x1000) = true := by decide
/-- V-FL20, and the second step of V-FL9. -/
theorem test_fetch_faults : faults (withPc 0xFFF State.reset) .addressFault 0x1000 = true ∧
    faults (withPc 0x10FE State.reset) .addressFault 0x10FE = true := by decide
/-- V-FLT1, V-FLT5: illegal words. -/
theorem test_illegal : faults State.reset .decodeFault 0x0000 = true ∧
    faults (running 0x5121 State.reset) .decodeFault 0x5121 = true := by decide

/-! ### Section 2.3: register arithmetic and logic -/

/-- V-AL1. -/
theorem test_ldImm : isNext (step (running 0x612C State.reset)) (fun t => t.readV 1 == 0x2C && t.pc == 0x202) = true := by decide
/-- V-AL2, V-AL4. -/
theorem test_addImm : isNext (step (running 0x7102 (regs [(1, 0xFF), (15, 9)]))) (fun t => t.readV 1 == 1 && t.readV 15 == 9) = true ∧
    isNext (step (running 0x7F01 (regs [(15, 0xFF)]))) (fun t => t.readV 15 == 0) = true := by decide
/-- V-AL5. -/
theorem test_ldReg : isNext (step (running 0x8120 (regs [(2, 0x33)]))) (fun t => t.readV 1 == 0x33 && t.readV 2 == 0x33) = true := by decide
/-- V-AL6. -/
theorem test_orReg : isNext (step (running 0x8121 (regs [(1, 0xF0), (2, 0x0F), (15, 7)])))
    (fun t => t.readV 1 == 0xFF && t.readV 15 == 7) = true := by decide
/-- V-AL7. -/
theorem test_andReg : isNext (step (running 0x8122 (regs [(1, 0xF0), (2, 0x3C), (15, 7)])))
    (fun t => t.readV 1 == 0x30 && t.readV 15 == 7) = true := by decide
/-- V-AL8. -/
theorem test_xorReg : isNext (step (running 0x8123 (regs [(1, 0xFF), (2, 0x0F), (15, 7)])))
    (fun t => t.readV 1 == 0xF0 && t.readV 15 == 7) = true := by decide
/-- V-AL13, V-AL15. -/
theorem test_addReg : isNext (step (running 0x8F14 (regs [(15, 0xF0), (1, 0x20)]))) (fun t => t.readV 15 == 1) = true ∧
    isNext (step (running 0x81F4 (regs [(1, 1), (15, 0xFF)]))) (fun t => t.readV 1 == 0 && t.readV 15 == 1) = true := by decide
/-- V-AL17, V-AL18. -/
theorem test_subReg : isNext (step (running 0x8125 (regs [(1, 0x10), (2, 0x30)]))) (fun t => t.readV 1 == 0xE0 && t.readV 15 == 0) = true ∧
    isNext (step (running 0x8115 (regs [(1, 0x77)]))) (fun t => t.readV 1 == 0 && t.readV 15 == 1) = true := by decide
/-- V-AL19, V-AL23. -/
theorem test_shr : isNext (step (running 0x8126 (regs [(1, 5), (2, 0xAA)]))) (fun t => t.readV 1 == 2 && t.readV 15 == 1) = true ∧
    isNext (step (running 0x8F06 (regs [(15, 2)]))) (fun t => t.readV 15 == 0) = true := by decide
/-- V-AL20: the other value of `SHIFT_SRC`. -/
theorem test_shr_from_y : isNext (shiftRight .y 1 2 (regs [(1, 0xAA), (2, 5)]))
    (fun t => t.readV 1 == 2 && t.readV 2 == 5 && t.readV 15 == 1) = true := by decide
/-- V-AL24, V-AL25. -/
theorem test_subn : isNext (step (running 0x8127 (regs [(1, 0x10), (2, 0x30)]))) (fun t => t.readV 1 == 0x20 && t.readV 15 == 1) = true ∧
    isNext (step (running 0x8127 (regs [(1, 0x30), (2, 0x10)]))) (fun t => t.readV 1 == 0xE0 && t.readV 15 == 0) = true := by decide
/-- V-AL26, V-AL27. -/
theorem test_shl : isNext (step (running 0x812E (regs [(1, 0x81)]))) (fun t => t.readV 1 == 2 && t.readV 15 == 1) = true ∧
    isNext (step (running 0x812E (regs [(1, 0x40)]))) (fun t => t.readV 1 == 0x80 && t.readV 15 == 0) = true := by decide
/-- V-AL28. -/
theorem test_rnd : isNext (stepWith 0xA7 (running 0xC10F State.reset)) (fun t => t.readV 1 == 0x07 && t.pc == 0x202) = true := by decide
/-- V-AL29, with the model's own byte: every field but the one that holds it. -/
theorem test_rnd_free : isNext (step (running 0xC10F State.reset)) (fun t => t.rndDraws == 1 && t.pc == 0x202) = true := by decide

/-! ### Section 2.4: index register and memory -/

/-- V-IDX1. -/
theorem test_ldI : isNext (step (running 0xA300 State.reset)) (fun t => t.i == 0x300) = true := by decide
/-- V-IDX3, V-IDX4. -/
theorem test_addI : isNext (step (running 0xF01E (withI 0xFFF (regs [(0, 1)])))) (fun t => t.i == 0x1000 && t.readV 15 == 0) = true ∧
    isNext (step (running 0xF01E (withI 0xFFFF (regs [(0, 2)])))) (fun t => t.i == 1) = true := by decide
/-- V-IDX5, V-IDX7. -/
theorem test_ldF : isNext (step (running 0xF029 (regs [(0, 0x0A)]))) (fun t => t.i == 0x32) = true ∧
    isNext (step (running 0xF029 (regs [(0, 0xFF)]))) (fun t => t.i == 0x4FB) = true := by decide
/-- V-MEM1. -/
theorem test_ldB : isNext (step (running 0xF333 (withI 0x300 (regs [(3, 0x9C)]))))
    (fun t => t.byteAt 0x300 == 1 && t.byteAt 0x301 == 5 && t.byteAt 0x302 == 6 && t.i == 0x300 && t.mem.wf) = true := by decide
/-- V-MEM2b. -/
theorem test_ldB_crosses : faults (running 0xF333 (withI 0xFFE (regs [(3, 0xFF)]))) .addressFault 0x1000 = true := by decide
/-- V-MEM4, V-MEM10. -/
theorem test_dump : isNext (step (running 0xF055 (withI 0x400 (regs [(0, 0x11), (1, 0x22)]))))
      (fun t => t.byteAt 0x400 == 0x11 && t.byteAt 0x401 == 0 && t.i == 0x400) = true ∧
    isNext (step (running 0xF055 (withI 3 (regs [(0, 0xAB)])))) (fun t => t.byteAt 3 == 0xAB && t.mem.wf) = true := by decide
/-- V-MEM6. -/
theorem test_dump_crosses : faults (running 0xFF55 (withI 0xFF1 (regs [(0, 0x11)]))) .addressFault 0x1000 = true := by decide
/-- V-MEM3, the load. -/
theorem test_load : isNext (step (running 0xF365 (poke 0x400 [0xDE, 0xAD, 0xBE, 0xEF, 0x99] (withI 0x400 (regs [(4, 0x44)])))))
    (fun t => t.readV 0 == 0xDE && t.readV 1 == 0xAD && t.readV 2 == 0xBE && t.readV 3 == 0xEF && t.readV 4 == 0x44) = true := by decide
/-- V-MEM7, V-MEM9. -/
theorem test_load_crosses :
    faults (running 0xF165 (withI 0xFFF (regs [(0, 7)]))) .addressFault 0x1000 = true ∧
    faults (running 0xF065 (withI 0x2000 State.reset)) .addressFault 0x2000 = true := by decide

/-! ### Section 2.5: display -/

/-- V-DRW0. -/
theorem test_drw : isNext (step (running 0xD015 State.reset)) (fun t => t.readV 15 == 0 &&
    pixels t [(0,0), (1,0), (2,0), (3,0), (0,1), (3,1), (0,3), (3,3), (0,4), (3,4)] [(4,0), (1,1), (2,3), (4,4), (0,5)]) = true := by decide
/-- V-DRW4, with the lit pixel put there by a first draw of `80`; V-DRW3 gives the origin's reduction. -/
theorem test_drw_collision_and_origin :
    isNext (step (running 0xD011 (poke 0x300 [0xC0] (withI 0x300 { State.reset with disp := Display.blank.flip 0 0 }))))
      (fun t => t.readV 15 == 1 && pixels t [(1,0)] [(0,0), (2,0)]) = true ∧
    isNext (step (running 0xD011 (poke 0x300 [0x80] (withI 0x300 (regs [(0, 70), (1, 40)])))))
      (fun t => t.readV 15 == 0 && pixels t [(6,8)] [(5,8), (7,8), (6,9)]) = true := by decide
/-- V-CLS1. -/
theorem test_cls : isNext (step (running 0x00E0 { regs [(15, 1)] with disp := Display.blank.flip 3 4 }))
    (fun t => t.readV 15 == 1 && pixels t [] [(3,4), (0,0)]) = true := by decide
/-- The results of V-DRW6 and V-CLS1. -/
theorem test_display_changed :
    eventResult (.step 0) (running 0xD010 (withI 0x300 (regs [(15, 1)]))) = some (.ok true) ∧
    eventResult (.step 0) (running 0x00E0 State.reset) = some (.ok false) := by decide

/-! ### Sections 2.6 and 2.7: keys, timers, faults, reset -/

/-- V-KEY1, V-KEY2. -/
theorem test_skp : isNext (step (running 0xE29E (keydown 5 (regs [(2, 5)])))) (fun t => t.pc == 0x204) = true ∧
    isNext (step (running 0xE29E (regs [(2, 5)]))) (fun t => t.pc == 0x202) = true := by decide
/-- V-KEY3, V-KEY4. -/
theorem test_sknp : isNext (step (running 0xE2A1 (keydown 5 (regs [(2, 5)])))) (fun t => t.pc == 0x202) = true ∧
    isNext (step (running 0xE2A1 (regs [(2, 5)]))) (fun t => t.pc == 0x204) = true := by decide
/-- V-KEY6. -/
theorem test_sknp_bad_key : faults (running 0xE2A1 (keydown 5 (regs [(2, 0x15)]))) .keyIndexFault 0x15 = true := by decide
/-- V-KEY7. -/
theorem test_ldVxK : isNext (step (running 0xF30A (keydown 7 (regs [(3, 0x55)]))))
    (fun t => t.await == .waiting 3 && t.pc == 0x202 && t.readV 3 == 0x55) = true := by decide
/-- V-KEY10, V-KEY12. -/
theorem test_keydown : isNext (handle (.keydown 7) { State.reset with await := .waiting 3 })
      (fun t => t.key[7] && t.readV 3 == 7 && t.await == .notWaiting) = true ∧
    isNext (handle (.keydown 2) State.reset) (fun t => t == { State.reset with key := State.reset.key.set 2 true }) = true := by decide
/-- V-KEY9. -/
theorem test_keyup : isNext (handle (.keyup 7) { keydown 7 State.reset with await := .waiting 3 })
    (fun t => t == { State.reset with await := .waiting 3 }) = true := by decide
/-- V-TMR4. -/
theorem test_ldVxDT : isNext (step (running 0xF407 { State.reset with dt := 0x2A })) (fun t => t.readV 4 == 0x2A && t.dt == 0x2A) = true := by
  decide
/-- V-TMR3. -/
theorem test_ldDTVx : isNext (step (running 0xF415 (regs [(4, 0x3C)]))) (fun t => t.dt == 0x3C && t.st == 0) = true := by decide
/-- V-TMR5. -/
theorem test_ldSTVx : isNext (step (running 0xF418 (regs [(4, 5)]))) (fun t => t.st == 5 && t.dt == 0 && t.soundActive) = true := by decide
/-- V-TMR1, V-TMR2. -/
theorem test_tick : isNext (handle .tick { State.reset with dt := 2 }) (fun t => t == { State.reset with dt := 1 }) = true ∧
    isNext (handle .tick { State.reset with st := 1 }) (fun t => t == State.reset && !t.soundActive) = true := by decide
/-- V-FLT2, V-FLT3, V-FLT4. -/
theorem test_halted :
    let s : State := { State.reset with fault := some ⟨.decodeFault, 0, 0x200⟩ }
    eventResult (.step 0) s = some (.fault ⟨.decodeFault, 0, 0x200⟩) ∧
    isNext (handle (.keydown 1) s) (fun t => t.key[1] && t.fault == s.fault) = true ∧
    isNext (handle (.reset [0x60, 0x01]) s) (fun t => t.fault == none && t.byteAt 0x200 == 0x60 && t.pc == 0x200) = true := by decide
/-- V-FLT7. -/
theorem test_reset_refused : handle (.reset (List.replicate 3585 0)) State.reset = .refused (.imageTooLong 3585) := by
  simp [handle, resetWith]
/-- V-FLT8: the longest image is accepted. -/
theorem test_reset_longest : ∃ t, handle (.reset (List.replicate 3584 7)) State.reset = .next t ∧ t.pc = 0x200 := by
  simp [handle, resetWith, loaded, State.reset]
/-- Glyphs 0 and F and the byte after the table (20_memory.md R48). -/
theorem test_glyphs : ([0, 1, 2, 3, 4].map fun j => State.reset.byteAt j) = [0xF0, 0x90, 0x90, 0x90, 0xF0] ∧
    ([0x4B, 0x4C, 0x4D, 0x4E, 0x4F, 0x50].map fun j => State.reset.byteAt j) = [0xF0, 0x80, 0xF0, 0x80, 0x80, 0] := by decide
/-- Writing what an unlisted address reads as lists nothing. -/
theorem test_memory_canonical :
    (Memory.set [] 0 0xF0) = [] ∧ (((Memory.set [] 0x300 1).set 0 2).set 0x300 0) = [(0, 2)] := by decide

/-! ### Witnesses: concrete states and operands that meet the hypotheses of each statement, clause by clause -/

/-- An undefined word at the last address an instruction fits. -/
abbrev illegalAtTop : State := poke 0xFFE [0xE3, 0x00] (withPc 0xFFE State.reset)

/-- The pixel (0, 0) is on, and no other. -/
abbrev oneLit : State := { State.reset with disp := Display.blank.flip 0 0 }

/-- Halted, and suspended on V15. -/
abbrev halted : State := { State.reset with fault := some ⟨.addressFault, 0x1000, 0x200⟩ }
abbrev suspended : State := { State.reset with await := .waiting 15, dt := 3 }

theorem witness_EncodeOfDecode : decode 0x1ABC = .ok (.jp 0xABC) ∧ decode 0xF065 = .ok (.load 0) := by decide

theorem witness_IllegalWordsAreUnknown : wellFormedWord 0x8ABF = false ∧ wellFormedWord 0x8ABE = true := by decide

theorem witness_DecoderFollowsOpcodeTable :
    decode 0xF365 = .ok (.load 3) ∧ ∃ r ∈ opcodeRows, r.fits 0xF365 = true :=
  ⟨by decide, ⟨0xF0FF, 0xF065⟩, by decide, by decide⟩

/-- At the reset address, at an odd one, and at the last one. -/
theorem witness_StepRunsDecodedInstruction :
    (running 0x6A7F State.reset).About (.ldImm 0xA 0x7F) ∧
    (running 0xD125 (withPc 0x201 State.reset)).About (.drw 1 2 5) ∧
    (running 0x00EE (withPc 0xFFE State.reset)).About .ret := by decide

theorem witness_StepChecksInOrder :
    halted.fault = some ⟨.addressFault, 0x1000, 0x200⟩ ∧
    (suspended.fault = none ∧ suspended.await = .waiting 15) ∧
    ((withPc 0xFFF State.reset).Ready ∧ 0xFFF ≤ (withPc 0xFFF State.reset).pc.toNat) ∧
    (illegalAtTop.Ready ∧ illegalAtTop.pc.toNat ≤ 0xFFE ∧
      decode (illegalAtTop.wordAt illegalAtTop.pc.toNat) = .error (.unknown (illegalAtTop.wordAt illegalAtTop.pc.toNat))) ∧
    (running 0x00E0 State.reset).About .cls ∧
    (∃ t, stepWith 0 (running 0x00E0 State.reset) = .next t ∧ (t.fault == none) = true) ∧
    ((running 0x00EE State.reset).About .ret ∧
      ∃ t, step (running 0x00EE State.reset) = .next t ∧ (t.fault == some ⟨.stackUnderflow, 0x00EE, 0x200⟩) = true) :=
  ⟨by decide, by decide, by decide, by decide, by decide, exists_next (by decide), by decide, exists_next (by decide)⟩

theorem witness_IllegalWordRaisesDecodeFault :
    illegalAtTop.Ready ∧ illegalAtTop.pc.toNat ≤ 0xFFE ∧ wellFormedWord (illegalAtTop.wordAt illegalAtTop.pc.toNat) = false := by decide

/-- A draw, another instruction, and a fault. -/
theorem witness_DisplayChangedExactlyOnDraw :
    (∃ t, step (running 0xD015 State.reset) = .next t ∧
      (stepResult (running 0xD015 State.reset) t == .ok true && t.fault == none) = true) ∧
    (∃ t, step (running 0x00E0 State.reset) = .next t ∧
      (stepResult (running 0x00E0 State.reset) t == .ok false && t.fault == none) = true) ∧
    ∃ t, step State.reset = .next t ∧ (stepResult State.reset t == .fault ⟨.decodeFault, 0, 0x200⟩ && t.fault != none) = true :=
  ⟨exists_next (by decide), exists_next (by decide), exists_next (by decide)⟩

theorem witness_FaultsArePrecise :
    (State.reset.fault = none ∧ ∃ t, step State.reset = .next t ∧ (t.fault == some ⟨.decodeFault, 0, 0x200⟩) = true) ∧
    ∃ t, stepWith 7 State.reset = .next t ∧ (t.fault == some ⟨.decodeFault, 0, 0x200⟩) = true :=
  ⟨⟨by decide, exists_next (by decide)⟩, exists_next (by decide)⟩

/-- One state for each cause, in the order of the statement, at the edge of its range. -/
theorem witness_FaultCauses :
    ((withPc 0xFFF State.reset).Ready ∧ ∃ t, step (withPc 0xFFF State.reset) = .next t ∧ (t.fault == some ⟨.addressFault, 0x1000, 0xFFF⟩) = true) ∧
    (illegalAtTop.Ready ∧ ∃ t, step illegalAtTop = .next t ∧ (t.fault == some ⟨.decodeFault, 0xE300, 0xFFE⟩) = true) ∧
    ((running 0x2300 (withSp 16 State.reset)).Ready ∧ ∃ t, step (running 0x2300 (withSp 16 State.reset)) = .next t ∧ (t.fault == some ⟨.stackOverflow, 0x2300, 0x200⟩) = true) ∧
    ((running 0x00EE State.reset).Ready ∧ ∃ t, step (running 0x00EE State.reset) = .next t ∧ (t.fault == some ⟨.stackUnderflow, 0x00EE, 0x200⟩) = true) ∧
    ((running 0xE29E (regs [(2, 0x10)])).Ready ∧ ∃ t, step (running 0xE29E (regs [(2, 0x10)])) = .next t ∧ (t.fault == some ⟨.keyIndexFault, 0x10, 0x200⟩) = true) ∧
    (running 0xD015 (withI 0xFFC State.reset)).Ready ∧
      ∃ t, step (running 0xD015 (withI 0xFFC State.reset)) = .next t ∧ (t.fault == some ⟨.addressFault, 0x1000, 0x200⟩) = true :=
  ⟨⟨by decide, exists_next (by decide)⟩, ⟨by decide, exists_next (by decide)⟩, ⟨by decide, exists_next (by decide)⟩,
    ⟨by decide, exists_next (by decide)⟩, ⟨by decide, exists_next (by decide)⟩, by decide, exists_next (by decide)⟩

theorem witness_HaltedUntilReset :
    halted.fault = some ⟨.addressFault, 0x1000, 0x200⟩ ∧ (∀ image, Event.tick ≠ .reset image) ∧
    ∃ t, handle (.reset []) halted = .next t ∧ (t.fault == none) = true :=
  ⟨by decide, (fun _ h => by cases h), exists_next (by decide)⟩

theorem witness_SuspensionLatchTransitions :
    (suspended.await = .waiting 15 ∧ ∃ t, handle (.keydown 15) suspended = .next t ∧ (t.await != .waiting 15) = true) ∧
    (∃ t, handle (.reset []) suspended = .next t ∧ (t.await != .waiting 15) = true) ∧
    (State.reset.await ≠ .waiting 3 ∧ (running 0xF30A State.reset).About (.ldVxK 3) ∧
      ∃ t, handle (.step 0) (running 0xF30A State.reset) = .next t ∧ (t.await == .waiting 3) = true) ∧
    ∃ t, handle (.step 0) suspended = .next t ∧ (t == suspended) = true :=
  ⟨⟨by decide, exists_next (by decide)⟩, exists_next (by decide), ⟨by decide, by decide, exists_next (by decide)⟩,
    exists_next (by decide)⟩

theorem witness_EveryEventAnswersNext :
    (∀ image, Event.keyup 15 ≠ .reset image) ∧ (List.replicate 3584 (7 : Byte)).length ≤ 3584 :=
  ⟨(fun _ h => by cases h), by simp⟩

/-- One state for each row of the table: a jump, a return, a taken and an untaken skip, an instruction that only advances. -/
theorem witness_SuccessorPcTable :
    ((running 0x1234 State.reset).About (.jp 0x234) ∧
      ∃ t, stepWith 0 (running 0x1234 State.reset) = .next t ∧ (t.fault == none) = true) ∧
    ((running 0x2234 State.reset).About (.call 0x234) ∧
      ∃ t, stepWith 0 (running 0x2234 State.reset) = .next t ∧ (t.fault == none) = true) ∧
    ((running 0xBFFF (regs [(0, 0xFF)])).About (.jpV0 0xFFF) ∧
      ∃ t, stepWith 0 (running 0xBFFF (regs [(0, 0xFF)])) = .next t ∧ (t.fault == none) = true) ∧
    ((running 0x00EE (withSp 1 State.reset)).About .ret ∧
      ∃ t, stepWith 0 (running 0x00EE (withSp 1 State.reset)) = .next t ∧ (t.fault == none) = true) ∧
    ((running 0x3000 (withPc 0xFFC State.reset)).About (.seImm 0 0) ∧
      ∃ t, stepWith 0 (running 0x3000 (withPc 0xFFC State.reset)) = .next t ∧ (t.fault == none) = true) ∧
    ((running 0x4000 State.reset).About (.sneImm 0 0) ∧
      ∃ t, stepWith 0 (running 0x4000 State.reset) = .next t ∧ (t.fault == none) = true) ∧
    ((running 0xE09E State.reset).About (.skp 0) ∧
      ∃ t, stepWith 0 (running 0xE09E State.reset) = .next t ∧ (t.fault == none) = true) ∧
    ((running 0x60FF State.reset).About (.ldImm 0 0xFF) ∧
      ∃ t, stepWith 0 (running 0x60FF State.reset) = .next t ∧ (t.fault == none) = true) :=
  ⟨⟨by decide, exists_next (by decide)⟩, ⟨by decide, exists_next (by decide)⟩, ⟨by decide, exists_next (by decide)⟩,
    ⟨by decide, exists_next (by decide)⟩, ⟨by decide, exists_next (by decide)⟩, ⟨by decide, exists_next (by decide)⟩,
    ⟨by decide, exists_next (by decide)⟩, ⟨by decide, exists_next (by decide)⟩⟩

/-- A destination, the flag of an addition, and the highest register of a load. -/
theorem witness_OnlyNamedRegistersChange :
    (∃ t, exec (.addReg 1 2) (regs [(1, 0xF0), (2, 0x20)]) = .next t ∧ (t.readV 1 != 0xF0 && t.readV 15 != 0) = true) ∧
    ∃ t, exec (.load 15) State.reset = .next t ∧ (t.readV 15 != 0) = true :=
  ⟨exists_next (by decide), exists_next (by decide)⟩

/-- Each piece of state, changed by one instruction that may. -/
theorem witness_WritersOfEachPiece :
    (∃ t, exec (.ldI 5) State.reset = .next t ∧ (t.i != State.reset.i) = true) ∧
    (∃ t, exec (.call 5) State.reset = .next t ∧ (t.stack != State.reset.stack && t.sp != State.reset.sp) = true) ∧
    (∃ t, exec (.ldDTVx 1) (regs [(1, 9)]) = .next t ∧ (t.dt != 0) = true) ∧
    (∃ t, exec (.ldSTVx 1) (regs [(1, 9)]) = .next t ∧ (t.st != 0) = true) ∧
    (∃ t, exec (.dump 0) State.reset = .next t ∧ (t.byteAt 0 != State.reset.byteAt 0) = true) ∧
    (∃ t, exec (.drw 0 0 1) State.reset = .next t ∧ (t.disp.get 0 0 != State.reset.disp.get 0 0) = true) ∧
    (∃ t, exec (.ldVxK 1) State.reset = .next t ∧ (t.await != State.reset.await) = true) ∧
    ∃ t, exec (.rnd 1 2) State.reset = .next t ∧ (t.rndDraws != State.reset.rndDraws) = true :=
  ⟨exists_next (by decide), exists_next (by decide), exists_next (by decide), exists_next (by decide), exists_next (by decide),
    exists_next (by decide), exists_next (by decide), exists_next (by decide)⟩

theorem witness_ReturnPops : 0 < (withSp 1 State.reset).sp.val ∧ 0 < (withSp 16 State.reset).sp.val ∧ State.reset.sp.val = 0 := by decide

theorem witness_CallPushes : State.reset.sp.val < 16 ∧ (withSp 15 State.reset).sp.val < 16 ∧ (withSp 16 State.reset).sp.val = 16 := by decide

/-- The second state is the first with every register and the display changed since. -/
theorem witness_CallThenReturn :
    ∃ _ : (withSp 15 State.reset).sp.val < 16, ∃ t, exec (.call 0x300) (withSp 15 State.reset) = .next t ∧
      let u := { t with v := Vector.replicate 16 7, disp := Display.blank.flip 1 1 }
      u.sp = t.sp ∧ u.stack[15] = t.stack[15] :=
  ⟨by decide, _, rfl, rfl, rfl⟩

/-- The hypotheses on register numbers: another destination than VF, VF itself only as the destination, and a third register. -/
theorem witness_AddWithCarry : (14 : Reg) ≠ 15 ∧ (0 : Reg) ≠ 14 ∧ (0 : Reg) ≠ 15 := by decide

theorem witness_Subtractions : (14 : Reg) ≠ 15 ∧ (0 : Reg) ≠ 14 ∧ (0 : Reg) ≠ 15 := by decide

theorem witness_ShiftsUnderEitherSource : (14 : Reg) ≠ 15 ∧ (0 : Reg) ≠ 14 ∧ (0 : Reg) ≠ 15 := by decide

theorem witness_ShiftsReadVxByDefault : (14 : Reg) ≠ 15 ∧ (0 : Reg) ≠ 14 ∧ (0 : Reg) ≠ 15 := by decide

theorem witness_ImmediateLoadAndAdd : (15 : Reg) ≠ 14 := by decide

theorem witness_MoveAndLogic : (15 : Reg) ≠ 14 := by decide

theorem witness_RandomAndForEveryByte :
    (1 : Reg) ≠ 0 ∧ (∀ x kk, Instr.cls ≠ .rnd x kk) ∧ halted.fault ≠ none ∧ suspended.await ≠ .notWaiting :=
  ⟨by decide, (fun _ _ h => by cases h), by decide, by decide⟩

theorem witness_RandomAndWithFreeByte : (1 : Reg) ≠ 0 := by decide

/-- `I` at 0xFFD and at 0xFFE; an address below and one above the three bytes. -/
theorem witness_StoreBcd :
    (withI 0xFFD State.reset).i.toNat + 2 ≤ 0xFFF ∧ 0xFFF < (withI 0xFFE State.reset).i.toNat + 2 ∧
    0xFFC < (withI 0xFFD State.reset).i.toNat ∧ (withI 0xFFD State.reset).i.toNat + 2 < 0x1000 ∧ State.reset.mem.wf = true := by decide

/-- Sixteen registers ending at 0xFFF and at 0x1000; one register at 0xFFF and at 0x1000. -/
theorem witness_RegisterDump :
    (withI 0xFF0 State.reset).i.toNat + (15 : Reg).val ≤ 0xFFF ∧ 0xFFF < (withI 0xFF1 State.reset).i.toNat + (15 : Reg).val ∧
    (withI 0xFFF State.reset).i.toNat + (0 : Reg).val ≤ 0xFFF ∧ 0xFFF < (withI 0x1000 State.reset).i.toNat + (0 : Reg).val ∧
    (15 : Reg) ≤ 15 ∧ 0xFEF < (withI 0xFF0 State.reset).i.toNat ∧ State.reset.mem.wf = true := by decide

theorem witness_RegisterLoad :
    (withI 0xFF0 State.reset).i.toNat + (15 : Reg).val ≤ 0xFFF ∧ 0xFFF < (withI 0xFFF State.reset).i.toNat + (1 : Reg).val ∧
    (withI 0xFFF State.reset).i.toNat + (0 : Reg).val ≤ 0xFFF ∧ 0xFFF < (withI 0x1000 State.reset).i.toNat + (0 : Reg).val ∧
    (0 : Reg) ≤ 0 ∧ (0 : Reg) < 1 := by decide

theorem witness_DumpThenLoadRoundTrip :
    (withI 0xFFC State.reset).i.toNat + (3 : Reg).val ≤ 0xFFF ∧
    (∃ t, exec (.dump 3) (withI 0xFFC (regs [(0, 0xDE), (3, 0xEF)])) = .next t ∧ (t.fault == none) = true) ∧
    (3 : Reg) ≤ 3 ∧ (3 : Reg) < 4 := ⟨by decide, exists_next (by decide), by decide, by decide⟩

theorem witness_MemReadAndMemWrite : (0xFFF : Nat) ≤ 0xFFF ∧ (0xFFF : Nat) < 0x1000 ∧ (0 : Nat) ≠ 0xFFF ∧ Memory.wf [] = true := by decide

/-- 95_test_vectors.md P6: `LD [I], V1` at 0x206 stores the two bytes at 0x208 that are fetched next. -/
theorem witness_StoreSeenByNextFetch :
    (withPc 0x206 (withI 0x208 State.reset)).fault = none ∧ (0 : Nat) < 15 ∧ 0 + 1 ≤ (1 : Reg).val ∧
    ∃ t, exec (.dump 1) (withPc 0x206 (withI 0x208 (regs [(0, 0x12), (1, 0x0A)]))) = .next t ∧
      (t.fault == none && t.pc == 0x208 && fetchWord t.mem 0x208 == .ok 0x120A) = true :=
  ⟨by decide, by decide, by decide, exists_next (by decide)⟩

theorem witness_ClearScreen : (running 0x00E0 State.reset).About .cls := by decide

/-- No rows with `I` at 0x1000, four rows ending at 0xFFF, five rows crossing; a pixel under the sprite and one beside it; a collision
and none; the step. -/
theorem witness_DrawInvertsSpritePixels :
    ((0 : BitVec 4) = 0 ∨ (withI 0x1000 State.reset).i.toNat + (0 : BitVec 4).toNat - 1 ≤ 0xFFF) ∧
    (withI 0xFFC State.reset).i.toNat + (4 : BitVec 4).toNat - 1 ≤ 0xFFF ∧
    ((5 : BitVec 4) ≠ 0 ∧ 0xFFF < (withI 0xFFC State.reset).i.toNat + (5 : BitVec 4).toNat - 1) ∧
    (∃ px py, SpriteOn State.reset 62 30 0 5 px py ∧ State.reset.pixel px py = false) ∧
    (∃ px py, ¬ SpriteOn State.reset 62 30 0 0 px py) ∧
    (∃ px py, SpriteOn { State.reset with disp := Display.blank.flip 1 0 } 62 30 0 5 px py ∧
      State.pixel { State.reset with disp := Display.blank.flip 1 0 } px py = true) ∧
    (¬ ∃ px py, SpriteOn State.reset 62 30 0 0 px py ∧ State.reset.pixel px py = true) ∧
    (0 : Reg) ≠ 15 ∧ (running 0xD015 State.reset).About (.drw 0 1 5) := by
  refine ⟨by decide, by decide, by decide, ⟨63, 30, ⟨0, by decide, 1, by decide, by decide⟩, by decide⟩, ⟨0, 0, ?_⟩,
    ⟨1, 0, ⟨2, by decide, 3, by decide, by decide⟩, by decide⟩, ?_, by decide, by decide⟩
  · rintro ⟨r, hr, -⟩
    exact absurd hr (Nat.not_lt_zero r)
  · rintro ⟨_, _, ⟨r, hr, -⟩, -⟩
    exact absurd hr (Nat.not_lt_zero r)

/-- The second draw comes after the registers were renamed and `I` moved to a copy of the sprite. -/
theorem witness_DrawTwiceRestoresPixels :
    let s := poke 0x300 [0x20] (withI 0x300 (regs [(0, 62), (1, 31)]))
    let u (t : State) := { t with v := (regs [(2, 62), (3, 31)]).v, i := (5 : Word) }
    s.fault = none ∧ ∃ t, exec (.drw 0 1 1) s = .next t ∧
      (t.fault == none && (u t).fault == none && (u t).readV 2 == s.readV 0 && (u t).readV 3 == s.readV 1 &&
        (u t).byteAt 5 == s.byteAt 0x300 &&
        isNext (exec (.drw 2 3 1) (u t)) fun w => w.fault == none && w.readV 15 == 1) = true :=
  ⟨by decide, exists_next (by decide)⟩

/-- With a pixel that goes off, and with none. -/
theorem witness_CollisionIffPixelTurnedOff :
    (oneLit.fault = none ∧ ∃ t, exec (.drw 0 0 1) oneLit = .next t ∧ (t.fault == none && oneLit.pixel 0 0 && !t.pixel 0 0) = true) ∧
    ((∃ t, exec (.drw 0 0 1) State.reset = .next t ∧ (t.fault == none) = true) ∧
      ∀ px py, State.reset.pixel px py ≠ true) := by
  refine ⟨⟨by decide, exists_next (by decide)⟩, exists_next (by decide), fun px py h => ?_⟩
  simp [State.pixel, State.reset, Display.get, Display.blank] at h

theorem witness_SpriteWrapsToColumnZero :
    let s := poke 0x300 [0xC0] (withI 0x300 (regs [(0, 63)]))
    s.fault = none ∧ (s.readV 0).toNat = Config.W - 1 ∧ (s.readV 1).toNat = 0 ∧ (1 : BitVec 4) ≠ 0 ∧
      (s.byteAt s.i.toNat).getLsbD 6 = true ∧ ∃ t, exec (.drw 0 1 1) s = .next t ∧ (t.fault == none) = true :=
  ⟨by decide, by decide, by decide, by decide, by decide, exists_next (by decide)⟩

theorem witness_KeySkips :
    ((regs [(2, 15)]).readV 2).toNat = (15 : KeyIdx).val ∧ ((regs [(2, 0)]).readV 2).toNat = (0 : KeyIdx).val ∧
    15 < ((regs [(2, 16)]).readV 2).toNat := by decide

theorem witness_ReadKeySuspends : State.reset.fault = none := by decide

theorem witness_TimerTransfers : (15 : Reg) ≠ 14 := by decide

theorem witness_KeydownResolvesSuspension :
    suspended.await = .waiting 15 ∧ State.reset.await = .notWaiting ∧ (0 : Reg) ≠ 15 := by decide

theorem witness_SuspendedUntilKeydown :
    suspended.fault = none ∧ suspended.await = .waiting 15 ∧
    ∀ e ∈ ([.step 9, .tick, .keyup 15] : List Event), e = .tick ∨ (∃ rnd, e = .step rnd) ∨ ∃ k, e = .keyup k := by
  refine ⟨by decide, by decide, fun e he => ?_⟩
  rcases List.mem_cons.mp he with rfl | he
  · exact .inr (.inl ⟨9, rfl⟩)
  · rcases List.mem_cons.mp he with rfl | he
    · exact .inl rfl
    · exact .inr (.inr ⟨15, List.mem_singleton.mp he⟩)

/-- The empty image, the longest one and one byte more; each address range has an address in it. -/
theorem witness_ResetContents :
    ([] : List Byte).length ≤ 3584 ∧ (List.replicate 3584 (7 : Byte)).length ≤ 3584 ∧ 3584 < (List.replicate 3585 (7 : Byte)).length ∧
    (0x4F : Nat) < 0x50 ∧ (0x50 : Nat) ≤ 0x1FF ∧ (0x1FF : Nat) < 0x200 ∧ 3583 < (List.replicate 3584 (7 : Byte)).length ∧
    0x200 + ([] : List Byte).length ≤ 0xFFF := by simp

/-- Steps that complete, that fault and that change nothing, each from a state with the invariant. -/
theorem witness_StepKeepsInvariant :
    ((running 0xBFFF (regs [(0, 0xFF)])).Inv ∧ ∃ t, step (running 0xBFFF (regs [(0, 0xFF)])) = .next t ∧ (t.pc == 0x10FE) = true) ∧
    (State.reset.Inv ∧ ∃ t, step State.reset = .next t ∧ (t.fault != none) = true) ∧
    halted.Inv ∧ suspended.Inv :=
  ⟨⟨by decide, exists_next (by decide)⟩, ⟨by decide, exists_next (by decide)⟩, by decide, by decide⟩

/-- An event from a state with the invariant, and a reset from a state without it. -/
theorem witness_EventsKeepInvariant :
    (halted.Inv ∧ ∃ t, handle (.keydown 15) halted = .next t ∧ (t.key[15]) = true) ∧
    (¬ (withPc 0xFFFF State.reset).Inv ∧ ∃ t, handle (.reset [0x12, 0x00]) (withPc 0xFFFF State.reset) = .next t ∧ (t.pc == 0x200) = true) :=
  ⟨⟨by decide, exists_next (by decide)⟩, by decide, exists_next (by decide)⟩

/-- V-FL2, and the same at the last address. -/
theorem witness_StoppedIsFixedPoint :
    (running 0x1200 State.reset).StoppedAt 0x200 ∧ (running 0x1FFE (withPc 0xFFE State.reset)).StoppedAt 0xFFE ∧
    (∀ image, Event.tick ≠ .reset image) ∧
    ∃ t, handle .tick (running 0x1200 State.reset) = .next t ∧ (t.pc == 0x200) = true :=
  ⟨by unfold State.StoppedAt; decide, by unfold State.StoppedAt; decide, (fun _ h => by cases h), exists_next (by decide)⟩

end Sys2Proof.Tests
end

/-! ## The decoder rejects illegal words only (30_encoding.md R65, R67) -/

namespace Sys2Proof

/-! ### A legal word decodes (30_encoding.md R64, R65), one lemma per family that has illegal words -/

section
variable {w : Word}

theorem decodeExact_of_exactOk (hf : family w = 0x0) (h : exactOk w = true) : ∃ i, decodeExact w = .ok i := by
  have key : w = 0x00E0 ∨ w = 0x00EE := by simpa [exactOk, hf] using h
  rcases key with rfl | rfl
  · exact ⟨.cls, rfl⟩
  · exact ⟨.ret, rfl⟩

theorem fieldN_eq_zero_of_skipEqOk (hf : family w = 0x5) (h : skipEqOk w = true) : fieldN w = 0 := by
  simpa [skipEqOk, hf, fieldN_eq_lowNibble] using h

theorem fieldN_eq_zero_of_skipNeOk (hf : family w = 0x9) (h : skipNeOk w = true) : fieldN w = 0 := by
  simpa [skipNeOk, hf, fieldN_eq_lowNibble] using h

/-- The nibbles R65 does not list under family 8 are the nine sub-keys of the ALU. -/
theorem mem_aluKeys_of_not_mem : ∀ n : BitVec 4, n ∉ ([0x8, 0x9, 0xA, 0xB, 0xC, 0xD, 0xF] : List (BitVec 4)) →
    n ∈ ([0x0, 0x1, 0x2, 0x3, 0x4, 0x5, 0x6, 0x7, 0xE] : List (BitVec 4)) := by decide

theorem decodeAlu_of_aluOk (hf : family w = 0x8) (h : aluOk w = true) : ∃ i, decodeAlu w = .ok i := by
  have key := mem_aluKeys_of_not_mem (fieldN w) (by simpa [aluOk, hf, fieldN_eq_lowNibble] using h)
  unfold decodeAlu
  generalize fieldX w = x, fieldY w = y, fieldN w = n at key ⊢
  simp only [List.mem_cons, List.not_mem_nil, or_false] at key
  rcases key with rfl | rfl | rfl | rfl | rfl | rfl | rfl | rfl | rfl <;> exact ⟨_, rfl⟩

theorem decodeKeySkip_of_keySkipOk (hf : family w = 0xE) (h : keySkipOk w = true) : ∃ i, decodeKeySkip w = .ok i := by
  have key : fieldKK w = 0x9E ∨ fieldKK w = 0xA1 := by simpa [keySkipOk, hf, fieldKK_eq_lowByte] using h
  rcases key with key | key <;> simp [decodeKeySkip, key]

theorem decodeMisc_of_miscOk (hf : family w = 0xF) (h : miscOk w = true) : ∃ i, decodeMisc w = .ok i := by
  have key : fieldKK w ∈ ([0x07, 0x0A, 0x15, 0x18, 0x1E, 0x29, 0x33, 0x55, 0x65] : List Byte) := by
    simpa [miscOk, hf, fieldKK_eq_lowByte] using h
  unfold decodeMisc
  generalize fieldX w = x, fieldKK w = kk at key ⊢
  simp only [List.mem_cons, List.not_mem_nil, or_false] at key
  rcases key with rfl | rfl | rfl | rfl | rfl | rfl | rfl | rfl | rfl <;> exact ⟨_, rfl⟩

theorem decode_of_wellFormedWord (h : wellFormedWord w = true) : ∃ i, decode w = .ok i := by
  simp only [wellFormedWord, Bool.and_eq_true] at h
  obtain ⟨⟨⟨⟨⟨hExact, hSkipEq⟩, hAlu⟩, hSkipNe⟩, hKey⟩, hMisc⟩ := h
  unfold decode
  split
  case h_1 hf => exact decodeExact_of_exactOk (BitVec.eq_of_toNat_eq hf) hExact
  case h_6 hf => exact ⟨_, if_pos (fieldN_eq_zero_of_skipEqOk (BitVec.eq_of_toNat_eq hf) hSkipEq)⟩
  case h_9 hf => exact decodeAlu_of_aluOk (BitVec.eq_of_toNat_eq hf) hAlu
  case h_10 hf => exact ⟨_, if_pos (fieldN_eq_zero_of_skipNeOk (BitVec.eq_of_toNat_eq hf) hSkipNe)⟩
  case h_15 hf => exact decodeKeySkip_of_keySkipOk (BitVec.eq_of_toNat_eq hf) hKey
  case h_16 =>
    have hlt := (fieldF w).isLt
    simp only [imp_false] at *
    exact decodeMisc_of_miscOk (BitVec.eq_of_toNat_eq (show (fieldF w).toNat = 15 by omega)) hMisc
  all_goals exact ⟨_, rfl⟩

/-- A word the decoder rejects is one of R65's illegal words. -/
theorem wellFormedWord_eq_false_of_decode_error {e : DecodeError} (h : decode w = .error e) : wellFormedWord w = false := by
  by_contra hw
  obtain ⟨i, hi⟩ := decode_of_wellFormedWord (Bool.not_eq_false _ ▸ hw)
  cases h.symm.trans hi

end

end Sys2Proof

/-! ## The pieces of state under instructions and events (10_state.md)

Each instruction's answer is told once: `exec_frame` says which pieces it may change, `exec_readV_of_not_named` which registers,
`exec_keeps_inv` that the invariant holds after it. The statements about `STEP` and the other events follow from these through
`cycle_next`, which says what a `STEP` can do. -/

namespace Sys2Proof.Machine

section
variable {s t : State}

/-! ### Zero extension as numbers (30_encoding.md R63, 43_index_memory.md R121) -/

theorem zextAddr_toNat (nnn : BitVec 12) : (zextAddr nnn).toNat = nnn.toNat := by
  simp only [zextAddr, BitVec.toNat_setWidth]
  omega

theorem zextByte_toNat (b : Byte) : (zextByte b).toNat = b.toNat := by
  simp only [zextByte, BitVec.toNat_setWidth]
  omega

/-! ### Taking a fault (60_exceptions.md R150, R151) -/

/-- `t` is `s` with a fault of 60_exceptions.md R150 latched at the `pc` of `s`, and nothing else changed (R151). -/
def Faulted (s t : State) : Prop := ∃ f : FaultRecord, f.wf = true ∧ f.pc = s.pc ∧ t = { s with fault := some f }

theorem Faulted.of_raise {c : FaultCode} {info : Word} (hw : FaultRecord.wf ⟨c, info, s.pc⟩ = true)
    (h : s.raise c info = .next t) : Faulted s t :=
  ⟨_, hw, rfl, (Host.Outcome.next.inj h).symm⟩

theorem FaultRecord.wf_decodeFault {w : Word} (h : wellFormedWord w = false) (pc : Word) :
    FaultRecord.wf ⟨.decodeFault, w, pc⟩ = true := by
  simp [FaultRecord.wf, h]

theorem FaultRecord.wf_stackOverflow (nnn : BitVec 12) (pc : Word) :
    FaultRecord.wf ⟨.stackOverflow, encode (.call nnn), pc⟩ = true := by
  simp [FaultRecord.wf, encode, family_wordA]

theorem FaultRecord.wf_addressFault (a pc : Word) : FaultRecord.wf ⟨.addressFault, lowestOffending a, pc⟩ = true := by
  refine decide_eq_true (show 0x1000 ≤ (lowestOffending a).toNat from ?_)
  unfold lowestOffending
  split
  · decide
  · omega

theorem FaultRecord.wf_keyIndexFault {b : Byte} (h : 15 < b.toNat) (pc : Word) :
    FaultRecord.wf ⟨.keyIndexFault, zextByte b, pc⟩ = true := by
  refine decide_eq_true (show 16 ≤ (zextByte b).toNat ∧ (zextByte b).toNat ≤ 255 from ?_)
  rw [zextByte_toNat]
  omega

/-! ### What an instruction that can fault answers: the fault, or the one state it completes in -/

theorem exec_ret_next (h : exec .ret s = .next t) :
    Faulted s t ∨ ∃ _ : 0 < s.sp.val,
      t = State.goto { s with sp := ⟨s.sp.val - 1, by omega⟩ } s.stack[s.sp.val - 1] := by
  rcases Nat.eq_zero_or_pos s.sp.val with h0 | h0
  · exact .inl (.of_raise rfl ((exec_ret_of_empty s h0).symm.trans h))
  · exact .inr ⟨h0, Host.Outcome.next.inj (h.symm.trans (exec_ret_of_pos s h0))⟩

theorem exec_call_next {nnn : BitVec 12} (h : exec (.call nnn) s = .next t) :
    Faulted s t ∨ ∃ _ : s.sp.val < 16, t = State.goto
      { s with stack := s.stack.set s.sp.val (s.pc + 2), sp := ⟨s.sp.val + 1, by omega⟩ } (zextAddr nnn) := by
  by_cases h0 : s.sp.val < 16
  · exact .inr ⟨h0, Host.Outcome.next.inj (h.symm.trans (exec_call_of_room s nnn h0))⟩
  · exact .inl (.of_raise (FaultRecord.wf_stackOverflow nnn s.pc) ((exec_call_of_full s nnn (by omega)).symm.trans h))

theorem exec_load_next {x : Reg} (h : exec (.load x) s = .next t) :
    Faulted s t ∨ t = State.advance { s with v := loadRegs s.v (s.bytesAtIndex (x.val + 1)) } := by
  by_cases h0 : s.i.toNat + x.val ≤ 0xFFF
  · exact .inr (Host.Outcome.next.inj (h.symm.trans (exec_load_of_fits s x h0)))
  · exact .inl (.of_raise (FaultRecord.wf_addressFault s.i s.pc) ((exec_load_of_crosses s x (by omega)).symm.trans h))

theorem exec_drw_next {x y : Reg} {n : BitVec 4} (h : exec (.drw x y n) s = .next t) :
    Faulted s t ∨ t = (s.drawSprite x y (s.bytesAtIndex n.toNat)).advance := by
  by_cases h0 : n = 0 ∨ s.i.toNat + n.toNat ≤ 0x1000
  · exact .inr (Host.Outcome.next.inj (h.symm.trans (exec_drw_of_fits s x y n h0)))
  · rw [not_or] at h0
    exact .inl (.of_raise (FaultRecord.wf_addressFault s.i s.pc)
      ((exec_drw_of_crosses s x y n h0.1 (by omega)).symm.trans h))

theorem State.storeAtIndex_next {bs : List Byte} (hb : bs ≠ []) (h : s.storeAtIndex bs = .next t) :
    Faulted s t ∨ ∃ m : Memory, (s.mem.wf = true → m.wf = true) ∧ t = State.advance { s with mem := m } := by
  by_cases h0 : s.i.toNat + bs.length ≤ 0x1000
  · obtain ⟨m, hm, hwf, -⟩ := s.storeAtIndex_ok bs h0
    exact .inr ⟨m, hwf, Host.Outcome.next.inj (h.symm.trans hm)⟩
  · exact .inl (.of_raise (FaultRecord.wf_addressFault s.i s.pc)
      ((s.storeAtIndex_error bs hb (by omega)).symm.trans h))

theorem exec_ldB_next {x : Reg} (h : exec (.ldB x) s = .next t) :
    Faulted s t ∨ ∃ m : Memory, (s.mem.wf = true → m.wf = true) ∧ t = State.advance { s with mem := m } :=
  State.storeAtIndex_next (by simp [bcdDigits]) h

theorem exec_dump_next {x : Reg} (h : exec (.dump x) s = .next t) :
    Faulted s t ∨ ∃ m : Memory, (s.mem.wf = true → m.wf = true) ∧ t = State.advance { s with mem := m } :=
  State.storeAtIndex_next (List.ne_nil_of_length_eq_add_one (s.length_regsUpTo x)) h

theorem State.skipOnKey_next {x : Reg} {w : Bool} (h : s.skipOnKey x w = .next t) :
    Faulted s t ∨ ∃ c, t = s.skipIf c := by
  rcases s.skipOnKey_cases x w with ⟨k, -, hk⟩ | ⟨h0, hk⟩
  · exact .inr ⟨_, Host.Outcome.next.inj (h.symm.trans hk)⟩
  · exact .inl (.of_raise (FaultRecord.wf_keyIndexFault h0 s.pc) (hk.symm.trans h))

/-! ### Frames -/

theorem Frame.mono {l l' : List Piece} (h : Frame l s t) (hl : l ⊆ l') : Frame l' s t where
  v hn := h.v fun hm => hn (hl hm)
  i hn := h.i fun hm => hn (hl hm)
  pc hn := h.pc fun hm => hn (hl hm)
  sp hn := h.sp fun hm => hn (hl hm)
  stack hn := h.stack fun hm => hn (hl hm)
  dt hn := h.dt fun hm => hn (hl hm)
  st hn := h.st fun hm => hn (hl hm)
  mem hn := h.mem fun hm => hn (hl hm)
  disp hn := h.disp fun hm => hn (hl hm)
  key hn := h.key fun hm => hn (hl hm)
  await hn := h.await fun hm => hn (hl hm)
  fault hn := h.fault fun hm => hn (hl hm)
  rndDraws hn := h.rndDraws fun hm => hn (hl hm)

theorem Faulted.frame (h : Faulted s t) : Frame [.fault] s t := by
  obtain ⟨f, -, -, rfl⟩ := h
  constructor <;> simp [State.byteAt, State.readV]

theorem Faulted.readV (h : Faulted s t) (r : Reg) : t.readV r = s.readV r := h.frame.v (by decide) r

theorem State.setV_frame {x : Reg} {b : Byte} (h : s.setV x b = .next t) : Frame [.v, .pc] s t := by
  cases h
  constructor <;> simp [State.byteAt]

theorem State.setVFlag_frame {x : Reg} {b : Byte} {f : Bool} (h : s.setVFlag x b f = .next t) : Frame [.v, .pc] s t := by
  cases h
  constructor <;> simp [State.byteAt]

theorem State.goto_frame (a : Word) : Frame [.pc] s (s.goto a) := by
  constructor <;> simp [State.byteAt]

theorem State.setIndex_frame {a : Word} (h : s.setIndex a = .next t) : Frame [.i, .pc] s t := by
  cases h
  constructor <;> simp [State.byteAt, State.readV]

theorem State.store_frame (m : Memory) : Frame [.mem, .pc] s (State.advance { s with mem := m }) := by
  constructor <;> simp [State.readV]

/-- The pieces an instruction that completes may change (10_state.md section 1). -/
def piecesWritten : Instr → List Piece
  | .jp _ | .jpV0 _ | .seImm _ _ | .sneImm _ _ | .seReg _ _ | .sneReg _ _ | .skp _ | .sknp _ => [.pc]
  | .ret => [.pc, .sp]
  | .call _ => [.pc, .sp, .stack]
  | .ldI _ | .addI _ | .ldF _ => [.i, .pc]
  | .ldB _ | .dump _ => [.mem, .pc]
  | .cls => [.disp, .pc]
  | .drw _ _ _ => [.v, .disp, .pc]
  | .ldVxK _ => [.await, .pc]
  | .ldDTVx _ => [.dt, .pc]
  | .ldSTVx _ => [.st, .pc]
  | .rnd _ _ => [.v, .pc, .rndDraws]
  | .ldImm _ _ | .addImm _ _ | .ldReg _ _ | .orReg _ _ | .andReg _ _ | .xorReg _ _ | .addReg _ _ | .subReg _ _ | .shr _ _
  | .subn _ _ | .shl _ _ | .ldVxDT _ | .load _ => [.v, .pc]

/-- An instruction latches a fault and changes nothing else, or changes no piece but its own. -/
theorem exec_frame {i : Instr} (h : exec i s = .next t) : Faulted s t ∨ Frame (piecesWritten i) s t := by
  cases i with
  | jp _ | jpV0 _ | seImm _ _ | sneImm _ _ | seReg _ _ | sneReg _ _ => cases h; exact .inr (State.goto_frame _)
  | ldImm _ _ | addImm _ _ | ldReg _ _ | orReg _ _ | andReg _ _ | xorReg _ _ | ldVxDT _ => exact .inr (State.setV_frame h)
  | addReg _ _ | subReg _ _ | shr _ _ | subn _ _ | shl _ _ => exact .inr (State.setVFlag_frame h)
  | ldI _ | addI _ | ldF _ => exact .inr (State.setIndex_frame h)
  | cls | ldVxK _ | ldDTVx _ | ldSTVx _ | rnd _ _ =>
    cases h
    exact .inr (by constructor <;> simp [piecesWritten, State.byteAt, State.readV])
  | ret =>
    refine (exec_ret_next h).imp_right ?_
    rintro ⟨-, rfl⟩
    constructor <;> simp [piecesWritten, State.byteAt, State.readV]
  | call nnn =>
    refine (exec_call_next h).imp_right ?_
    rintro ⟨-, rfl⟩
    constructor <;> simp [piecesWritten, State.byteAt, State.readV]
  | load x =>
    refine (exec_load_next h).imp_right ?_
    rintro rfl
    constructor <;> simp [piecesWritten, State.byteAt]
  | drw x y n =>
    refine (exec_drw_next h).imp_right ?_
    rintro rfl
    constructor <;> simp [piecesWritten, State.byteAt, State.drawSprite]
  | ldB x => exact (exec_ldB_next h).imp_right fun ⟨m, _, e⟩ => e ▸ State.store_frame m
  | dump x => exact (exec_dump_next h).imp_right fun ⟨m, _, e⟩ => e ▸ State.store_frame m
  | skp x | sknp x =>
    exact (State.skipOnKey_next h).imp_right fun ⟨c, e⟩ => e ▸ State.goto_frame _

end

section
variable {s t : State}

/-! ### The cycle (40_step_cycle.md R80) -/

/-- What a `STEP` that answers `t` did: nothing, in a halted or suspended engine; a fault of the fetch or of the decoder; or the
instruction it was about. -/
theorem cycle_next {execute : Instr → State → Result} (h : cycle execute s = .next t) :
    (¬ s.Ready ∧ t = s) ∨ (s.Ready ∧ Faulted s t) ∨ ∃ i, s.About i ∧ execute i s = .next t := by
  rcases cycle_cases execute s with ⟨hstop, hc⟩ | ⟨hf, ha, ⟨-, hc⟩ | ⟨hpc, op, rfl, ⟨e, hd, hc⟩ | ⟨i, hd, hc⟩⟩⟩
  · refine .inl ⟨?_, (Host.Outcome.next.inj (hc.symm.trans h)).symm⟩
    rintro ⟨hf, ha⟩
    simp [hf, ha] at hstop
  · rw [ofNat_max_eq_lowestOffending] at hc
    exact .inr (.inl ⟨⟨hf, ha⟩, .of_raise (FaultRecord.wf_addressFault _ _) (hc.symm.trans h)⟩)
  · exact .inr (.inl ⟨⟨hf, ha⟩,
      .of_raise (FaultRecord.wf_decodeFault (wellFormedWord_eq_false_of_decode_error hd) _) (hc.symm.trans h)⟩)
  · exact .inr (.inr ⟨i, ⟨⟨hf, ha⟩, hpc, hd⟩, hc.symm.trans h⟩)

/-- A `STEP` that is about an instruction is that instruction. -/
theorem cycle_of_about (execute : Instr → State → Result) {i : Instr} (h : s.About i) : cycle execute s = execute i s := by
  obtain ⟨⟨hf, ha⟩, hpc, hd⟩ := h
  rw [cycle_of_ready execute hf ha, fetchWord_ok (by simp only [Config.memSize]; omega), State.onAccess_ok,
    decodeAndExecute, show decode (wordOfBytes (s.mem.get s.pc.toNat) (s.mem.get (s.pc.toNat + 1))) = .ok i from hd]

/-- With the host's byte, random-and sets `V[x]` to it under the mask, and every other instruction is as without. -/
theorem execWith_cases (rnd : Byte) (i : Instr) (s : State) :
    (∃ x kk, i = .rnd x kk ∧ execWith rnd i s = s.setV x (rnd &&& kk)) ∨ execWith rnd i s = exec i s := by
  by_cases h : ∃ x kk, i = .rnd x kk
  · obtain ⟨x, kk, rfl⟩ := h
    exact .inl ⟨x, kk, rfl, rfl⟩
  · simp only [not_exists] at h
    exact .inr (execWith_eq_exec h s)

theorem execWith_frame {rnd : Byte} {i : Instr} (h : execWith rnd i s = .next t) :
    Faulted s t ∨ Frame (piecesWritten i) s t := by
  rcases execWith_cases rnd i s with ⟨x, kk, rfl, he⟩ | he
  · exact .inr ((State.setV_frame (he.symm.trans h)).mono (by simp [piecesWritten]))
  · exact exec_frame (he.symm.trans h)

/-! ### The invariant, part by part -/

theorem State.inv_iff : s.Inv ↔ s.mem.wf = true ∧ s.pc.toNat ≤ 0x10FE ∧ (∀ j (h : j < 16), s.stack[j].toNat ≤ 0x1000) ∧
    ∀ f, s.fault = some f → f.wf = true ∧ f.pc = s.pc ∧ s.await = .notWaiting := by
  unfold State.Inv State.invariant
  cases hf : s.fault <;> simp [and_assoc]

/-- A state with no fault latched. -/
theorem State.inv_of_no_fault (hm : t.mem.wf = true) (hp : t.pc.toNat ≤ 0x10FE)
    (hst : ∀ j (h : j < 16), t.stack[j].toNat ≤ 0x1000) (hf : t.fault = none) : t.Inv :=
  State.inv_iff.mpr ⟨hm, hp, hst, by simp [hf]⟩

theorem State.Inv.mem_wf (hs : s.Inv) : s.mem.wf = true := (State.inv_iff.mp hs).1

theorem State.Inv.stack_le (hs : s.Inv) (j : Nat) (h : j < 16) : s.stack[j].toNat ≤ 0x1000 := by
  obtain ⟨-, -, hst, -⟩ := State.inv_iff.mp hs
  exact hst j h

/-- What changes none of the pieces the invariant speaks of keeps it; the suspension may end. -/
theorem State.Inv.of_same (hs : s.Inv) (hm : t.mem = s.mem) (hp : t.pc = s.pc) (hst : t.stack = s.stack)
    (hf : t.fault = s.fault) (ha : s.await = .notWaiting → t.await = .notWaiting) : t.Inv := by
  obtain ⟨hwf, hle, hslots, hlatch⟩ := State.inv_iff.mp hs
  refine State.inv_iff.mpr ⟨hm ▸ hwf, hp ▸ hle, hst ▸ hslots, fun f h => ?_⟩
  obtain ⟨hw, hpc, haw⟩ := hlatch f (hf ▸ h)
  exact ⟨hw, hp ▸ hpc, ha haw⟩

theorem State.Inv.of_faulted (hs : s.Inv) (hr : s.Ready) (h : Faulted s t) : t.Inv := by
  obtain ⟨hwf, hle, hslots, -⟩ := State.inv_iff.mp hs
  obtain ⟨f, hw, hpc, rfl⟩ := h
  refine State.inv_iff.mpr ⟨hwf, hle, hslots, fun g hg => ?_⟩
  cases hg
  exact ⟨hw, hpc, hr.2⟩

/-- A completed instruction that leaves memory, stack and latch as they are, and moves `pc` to a place within bounds. -/
theorem State.Inv.of_moved (hs : s.Inv) (hr : s.Ready) (hm : t.mem = s.mem) (hst : t.stack = s.stack)
    (hf : t.fault = s.fault) (hp : t.pc.toNat ≤ 0x10FE) : t.Inv :=
  State.inv_of_no_fault (hm ▸ hs.mem_wf) hp (hst ▸ hs.stack_le) (hf.trans hr.1)

/-! ### Where `pc` can go from an address that can be fetched from (10_state.md R13) -/

/-- The return address of a call that was fetched (10_state.md R13). -/
theorem toNat_add_two_le {pc : Word} (h : pc.toNat ≤ 0xFFE) : (pc + 2).toNat ≤ 0x1000 := by bv_omega

theorem toNat_next_le {pc : Word} (h : pc.toNat ≤ 0xFFE) : (pc + 2).toNat ≤ 0x10FE :=
  (toNat_add_two_le h).trans (by decide)

theorem toNat_skip_le {pc : Word} (h : pc.toNat ≤ 0xFFE) (c : Bool) :
    (if c then pc + 4 else pc + 2).toNat ≤ 0x10FE := by
  split <;> bv_omega

theorem toNat_jump_le (nnn : BitVec 12) : (zextAddr nnn).toNat ≤ 0x10FE := by
  rw [zextAddr_toNat]
  omega

theorem toNat_offset_jump_le (nnn : BitVec 12) (b : Byte) : (zextAddr nnn + zextByte b).toNat ≤ 0x10FE := by
  rw [BitVec.toNat_add, zextAddr_toNat, zextByte_toNat]
  omega

/-! ### Every instruction keeps the invariant -/

theorem State.Inv.skipIf (hs : s.Inv) (hr : s.Ready) (hpc : s.pc.toNat ≤ 0xFFE) (c : Bool) : (s.skipIf c).Inv :=
  hs.of_moved hr rfl rfl rfl (toNat_skip_le hpc c)

/-- A store keeps it when it keeps memory canonical. -/
theorem State.Inv.store (hs : s.Inv) (hr : s.Ready) (hpc : s.pc.toNat ≤ 0xFFE)
    (h : ∃ m : Memory, (s.mem.wf = true → m.wf = true) ∧ t = State.advance { s with mem := m }) : t.Inv := by
  obtain ⟨m, hm, rfl⟩ := h
  exact State.inv_of_no_fault (hm hs.mem_wf) (toNat_next_le hpc) hs.stack_le hr.1

theorem stack_set_le {stack : Vector Word 16} {k : Nat} {a : Word} (hk : k < 16) (h : ∀ j (h : j < 16), stack[j].toNat ≤ 0x1000)
    (ha : a.toNat ≤ 0x1000) (j : Nat) (hj : j < 16) : (stack.set k a)[j].toNat ≤ 0x1000 := by
  rw [Vector.getElem_set]
  split
  · exact ha
  · exact h j hj

theorem exec_keeps_inv {i : Instr} (hs : s.Inv) (ha : s.About i) (h : exec i s = .next t) : t.Inv := by
  obtain ⟨hr, hpc, -⟩ := ha
  cases i with
  | jp nnn => cases h; exact hs.of_moved hr rfl rfl rfl (toNat_jump_le nnn)
  | jpV0 nnn => cases h; exact hs.of_moved hr rfl rfl rfl (toNat_offset_jump_le nnn _)
  | seImm _ _ | sneImm _ _ | seReg _ _ | sneReg _ _ => cases h; exact hs.skipIf hr hpc _
  | skp _ | sknp _ => exact (State.skipOnKey_next h).elim (hs.of_faulted hr) fun ⟨c, e⟩ => e ▸ hs.skipIf hr hpc c
  | ldB _ => exact (exec_ldB_next h).elim (hs.of_faulted hr) (hs.store hr hpc)
  | dump _ => exact (exec_dump_next h).elim (hs.of_faulted hr) (hs.store hr hpc)
  | load _ =>
    refine (exec_load_next h).elim (hs.of_faulted hr) ?_
    rintro rfl
    exact hs.of_moved hr rfl rfl rfl (toNat_next_le hpc)
  | drw _ _ _ =>
    refine (exec_drw_next h).elim (hs.of_faulted hr) ?_
    rintro rfl
    exact hs.of_moved hr rfl rfl rfl (toNat_next_le hpc)
  | ret =>
    refine (exec_ret_next h).elim (hs.of_faulted hr) ?_
    rintro ⟨hpos, rfl⟩
    exact hs.of_moved hr rfl rfl rfl ((hs.stack_le _ (by omega)).trans (by decide))
  | call nnn =>
    refine (exec_call_next h).elim (hs.of_faulted hr) ?_
    rintro ⟨hroom, rfl⟩
    exact State.inv_of_no_fault hs.mem_wf (toNat_jump_le nnn)
      (stack_set_le hroom hs.stack_le (toNat_add_two_le hpc)) hr.1
  | _ => cases h; exact hs.of_moved hr rfl rfl rfl (toNat_next_le hpc)

theorem execWith_keeps_inv {rnd : Byte} {i : Instr} (hs : s.Inv) (ha : s.About i) (h : execWith rnd i s = .next t) : t.Inv := by
  rcases execWith_cases rnd i s with ⟨x, kk, rfl, he⟩ | he
  · cases he.symm.trans h
    exact hs.of_moved ha.1 rfl rfl rfl (toNat_next_le ha.2.1)
  · exact exec_keeps_inv hs ha (he.symm.trans h)

/-- A `STEP` keeps the invariant when the execution of the instruction it is about does. -/
theorem cycle_keeps_inv {execute : Instr → State → Result}
    (hex : ∀ {i}, s.About i → execute i s = .next t → t.Inv) (hs : s.Inv) (h : cycle execute s = .next t) : t.Inv := by
  rcases cycle_next h with ⟨-, rfl⟩ | ⟨hr, hf⟩ | ⟨i, ha, hi⟩
  · exact hs
  · exact hs.of_faulted hr hf
  · exact hex ha hi

/-! ### The other events -/

@[simp] theorem keydown_mem (k : KeyIdx) : (keydown k s).mem = s.mem := by unfold keydown; split <;> rfl
@[simp] theorem keydown_pc (k : KeyIdx) : (keydown k s).pc = s.pc := by unfold keydown; split <;> rfl
@[simp] theorem keydown_stack (k : KeyIdx) : (keydown k s).stack = s.stack := by unfold keydown; split <;> rfl
@[simp] theorem keydown_fault (k : KeyIdx) : (keydown k s).fault = s.fault := by unfold keydown; split <;> rfl
@[simp] theorem keydown_await (k : KeyIdx) : (keydown k s).await = .notWaiting := by
  unfold keydown
  split
  · assumption
  · rfl

/-- The image `RESET` places is what writing it byte by byte inside memory gives. -/
theorem memWriteN_eq_placeBytes (m : Memory) (a : Nat) (bs : List Byte) (h : bs = [] ∨ a + bs.length ≤ Config.memSize) :
    memWriteN m a bs = .ok (placeBytes m a bs) := by
  induction bs generalizing m a with
  | nil => rfl
  | cons b bs ih =>
    have hlen : a + (bs.length + 1) ≤ Config.memSize := by simpa using h
    simp only [memWriteN, memWrite_ok (show a < Config.memSize by omega), placeBytes]
    exact ih _ _ (.inr (by omega))

/-- A program image of at most 3584 bytes: canonical memory, the image from 0x200, and the contents after reset elsewhere. -/
theorem placeBytes_image {image : List Byte} (h : image.length ≤ Config.progMax) :
    (placeBytes [] Config.progBase image).wf = true ∧
    ∀ a, (placeBytes [] Config.progBase image).get a =
      if 0x200 ≤ a ∧ a < 0x200 + image.length then image.getD (a - 0x200) 0 else Memory.background a := by
  have hfits : image = [] ∨ Config.progBase + image.length ≤ Config.memSize := by
    simp only [Config.progBase, Config.memSize, Config.progMax] at *
    omega
  obtain ⟨m, hm, hwf, hget⟩ := memWriteN_ok [] Config.progBase image hfits
  rw [memWriteN_eq_placeBytes _ _ _ hfits] at hm
  cases hm
  exact ⟨hwf rfl, hget⟩

theorem resetWith_of_fits {image : List Byte} (h : image.length ≤ Config.progMax) (s : State) :
    resetWith image s = .next { loaded image with rndDraws := s.rndDraws } := if_pos h

theorem resetWith_of_long {image : List Byte} (h : Config.progMax < image.length) (s : State) :
    resetWith image s = .refused (.imageTooLong image.length) := if_neg (by omega)

/-- A `RESET` that answers a state had an image that fits, and the state is the one that image loads. -/
theorem resetWith_next {image : List Byte} (h : resetWith image s = .next t) :
    image.length ≤ Config.progMax ∧ t = { loaded image with rndDraws := s.rndDraws } := by
  by_cases hlen : image.length ≤ Config.progMax
  · exact ⟨hlen, Host.Outcome.next.inj (h.symm.trans (resetWith_of_fits hlen s))⟩
  · cases h.symm.trans (resetWith_of_long (by omega) s)

theorem loaded_inv {image : List Byte} (h : image.length ≤ Config.progMax) : (loaded image).Inv :=
  State.inv_of_no_fault (placeBytes_image h).1 (show (0x200 : Word).toNat ≤ 0x10FE by decide)
    (by simp [loaded, State.reset]) rfl

theorem resetWith_inv {image : List Byte} (h : resetWith image s = .next t) : t.Inv := by
  obtain ⟨hlen, rfl⟩ := resetWith_next h
  exact (loaded_inv hlen).of_same rfl rfl rfl rfl fun _ => rfl

theorem handle_keeps_inv {e : Event} (hs : s.Inv) (h : handle e s = .next t) : t.Inv := by
  cases e with
  | reset image => exact resetWith_inv h
  | step rnd => exact cycle_keeps_inv (execWith_keeps_inv hs) hs h
  | tick => cases h; exact hs.of_same rfl rfl rfl rfl id
  | keydown k => cases h; exact hs.of_same (by simp) (by simp) (by simp) (by simp) (by simp)
  | keyup k => cases h; exact hs.of_same rfl rfl rfl rfl id

end

section
variable {s t : State} {i : Instr}

/-! ### Which instructions write a piece of state (10_state.md sections 1 to 6) -/

theorem index_mem_piecesWritten (h : .i ∈ piecesWritten i) : (∃ nnn, i = .ldI nnn) ∨ (∃ x, i = .addI x) ∨ ∃ x, i = .ldF x := by
  cases i <;> simp_all [piecesWritten]

theorem stack_mem_piecesWritten (h : .stack ∈ piecesWritten i) : ∃ nnn, i = .call nnn := by
  cases i <;> simp_all [piecesWritten]

theorem sp_mem_piecesWritten (h : .sp ∈ piecesWritten i) : i = .ret ∨ ∃ nnn, i = .call nnn := by
  cases i <;> simp_all [piecesWritten]

theorem dt_mem_piecesWritten (h : .dt ∈ piecesWritten i) : ∃ x, i = .ldDTVx x := by
  cases i <;> simp_all [piecesWritten]

theorem st_mem_piecesWritten (h : .st ∈ piecesWritten i) : ∃ x, i = .ldSTVx x := by
  cases i <;> simp_all [piecesWritten]

theorem mem_mem_piecesWritten (h : .mem ∈ piecesWritten i) : (∃ x, i = .ldB x) ∨ ∃ x, i = .dump x := by
  cases i <;> simp_all [piecesWritten]

theorem disp_mem_piecesWritten (h : .disp ∈ piecesWritten i) : i = .cls ∨ ∃ x y n, i = .drw x y n := by
  cases i <;> simp_all [piecesWritten]

theorem key_not_mem_piecesWritten : .key ∉ piecesWritten i := by
  cases i <;> simp [piecesWritten]

theorem await_mem_piecesWritten (h : .await ∈ piecesWritten i) : ∃ x, i = .ldVxK x := by
  cases i <;> simp_all [piecesWritten]

theorem rndDraws_mem_piecesWritten (h : .rndDraws ∈ piecesWritten i) : ∃ x kk, i = .rnd x kk := by
  cases i <;> simp_all [piecesWritten]

/-- Faulted or completed, an instruction changes no piece but its own and the latch. -/
theorem exec_frame_fault (h : exec i s = .next t) : Frame (.fault :: piecesWritten i) s t := by
  rcases exec_frame h with hf | hf
  · exact hf.frame.mono (by simp)
  · exact hf.mono (by simp)

/-! ### Registers an instruction does not name (10_state.md R10, R11) -/

variable {r x : Reg}

theorem State.setV_readV_of_ne {b : Byte} (h : s.setV x b = .next t) (hr : r ≠ x) : t.readV r = s.readV r := by
  cases h
  rw [State.readV_advance, State.readV_writeV, if_neg hr]

theorem State.setVFlag_readV_of_ne {b : Byte} {f : Bool} (h : s.setVFlag x b f = .next t) (hr : r ≠ x)
    (hflag : r ≠ Reg.flag) : t.readV r = s.readV r := by
  cases h
  rw [State.readV_advance, State.readV_writeWithFlag, if_neg hflag, if_neg hr]

theorem State.drawSprite_readV_of_ne {y : Reg} {rows : List Byte} (hflag : r ≠ Reg.flag) :
    (s.drawSprite x y rows).readV r = s.readV r :=
  (State.readV_writeV _ _ _ _).trans (if_neg hflag)

theorem loadRegs_getElem_of_length_le {v : Vector Byte 16} {bs : List Byte} (h : bs.length ≤ r.val) :
    (loadRegs v bs)[r.val] = v[r.val] := by
  rw [loadRegs_getElem, List.getD_eq_default _ _ h]

theorem exec_readV_of_not_named (h : exec i s = .next t) (hd : ¬ namesAsDestination i r)
    (hflag : ¬ (r = Reg.flag ∧ writesFlag i = true)) : t.readV r = s.readV r := by
  rcases exec_frame h with hf | hframe
  · exact hf.readV r
  cases i with
  | ldImm _ _ | addImm _ _ | ldReg _ _ | orReg _ _ | andReg _ _ | xorReg _ _ | ldVxDT _ =>
    exact State.setV_readV_of_ne h hd
  | rnd x kk => exact State.setV_readV_of_ne (s := { s with rndDraws := s.rndDraws + 1 }) h hd
  | addReg _ _ | subReg _ _ | shr _ _ | subn _ _ | shl _ _ =>
    exact State.setVFlag_readV_of_ne h hd fun e => hflag ⟨e, rfl⟩
  | drw x y n =>
    rcases exec_drw_next h with hf | rfl
    · exact hf.readV r
    · exact State.drawSprite_readV_of_ne fun e => hflag ⟨e, rfl⟩
  | load x =>
    rcases exec_load_next h with hf | rfl
    · exact hf.readV r
    · have hx : x.val < r.val := not_le.mp hd
      exact loadRegs_getElem_of_length_le (by rwa [State.length_bytesAtIndex])
  | _ => exact hframe.v (by simp [piecesWritten]) r

end

section
variable {s t : State} {rnd : Byte} {r : Reg}

/-! ### The suspension latch (10_state.md R21) -/

theorem stepWith_of_waiting (ha : s.await = .waiting r) (h : stepWith rnd s = .next t) : t = s :=
  Host.Outcome.next.inj (h.symm.trans (cycle_of_waiting _ ha))

/-- A `STEP` that executes read-key ends waiting on its target. -/
theorem stepWith_of_readKey (ha : s.About (.ldVxK r)) (h : stepWith rnd s = .next t) : t.await = .waiting r := by
  cases (cycle_of_about (execWith rnd) ha).symm.trans h
  rfl

/-- A `STEP` changes the suspension latch by executing read-key, and in no other way. -/
theorem stepWith_await (h : stepWith rnd s = .next t) (hne : t.await ≠ s.await) : ∃ x, s.About (.ldVxK x) := by
  rcases cycle_next h with ⟨-, rfl⟩ | ⟨-, hf⟩ | ⟨i, ha, hi⟩
  · exact absurd rfl hne
  · exact absurd (hf.frame.await (by decide)) hne
  · rcases execWith_frame hi with hf | hf
    · exact absurd (hf.frame.await (by decide)) hne
    · obtain ⟨x, rfl⟩ := await_mem_piecesWritten (not_imp_comm.mp hf.await hne)
      exact ⟨x, ha⟩

theorem stepWith_waiting (h : stepWith rnd s = .next t) (ht : t.await = .waiting r) (hs : s.await ≠ .waiting r) :
    s.About (.ldVxK r) := by
  obtain ⟨x, hx⟩ := stepWith_await h fun e => hs (e ▸ ht)
  cases ht.symm.trans (stepWith_of_readKey hx h)
  exact hx

/-! ### The contents after reset (10_state.md R25) -/

theorem Memory.background_of_ge {a : Nat} (h : 0x50 ≤ a) : Memory.background a = 0 :=
  List.getD_eq_default _ _ h

end

/-! ### The statements of the family 10_state.md -/

/-- Settles O52: a `STEP` does nothing, latches a fault of R150 at its `pc`, or runs one instruction that keeps the invariant. -/
theorem stepKeepsInvariant : Obligations.StepKeepsInvariant := by
  intro s t hs h
  exact cycle_keeps_inv (exec_keeps_inv hs) hs h

/-- Settles O53, with the lemmas of O52 for the event `STEP`. -/
theorem eventsKeepInvariant : Obligations.EventsKeepInvariant :=
  ⟨fun _ _ _ hs h => handle_keeps_inv hs h, fun _ _ _ h => resetWith_inv h⟩

/-- Settles O51: the state after reset is the one the empty image loads. -/
theorem invariantAtReset : Obligations.InvariantAtReset :=
  ⟨loaded_inv (image := []) (by simp), rfl⟩

/-- Settles O13, event by event. -/
theorem suspensionLatchTransitions : Obligations.SuspensionLatchTransitions := by
  intro s e t h
  cases e with
  | reset image =>
    obtain ⟨-, rfl⟩ := resetWith_next h
    exact ⟨fun _ _ _ => .inr ⟨image, rfl⟩, nofun, nofun, nofun, fun _ _ => rfl, nofun⟩
  | step rnd =>
    refine ⟨fun r hs ht => ?_, fun r ht hs => ⟨⟨rnd, rfl⟩, stepWith_waiting h ht hs⟩, fun r _ _ ha => stepWith_of_readKey ha h,
      nofun, nofun, fun r _ hs _ => stepWith_of_waiting hs h⟩
    rw [stepWith_of_waiting hs h] at ht
    exact absurd hs ht
  | tick =>
    cases h
    exact ⟨fun _ hs ht => absurd hs ht, fun _ ht hs => absurd ht hs, nofun, nofun, nofun, nofun⟩
  | keydown k =>
    cases h
    exact ⟨fun _ _ _ => .inl ⟨k, rfl⟩, fun _ ht _ => by simp at ht, nofun, fun _ _ => keydown_await k, nofun, nofun⟩
  | keyup k =>
    cases h
    exact ⟨fun _ hs ht => absurd hs ht, fun _ ht hs => absurd ht hs, nofun, nofun, nofun, nofun⟩

/-- Settles O16, by contraposition: a register neither named nor written as the flag keeps its value. -/
theorem onlyNamedRegistersChange : Obligations.OnlyNamedRegistersChange := by
  intro i s t h r hne
  by_contra hnot
  rw [not_or] at hnot
  exact hne (exec_readV_of_not_named h hnot.1 hnot.2)

/-- Settles O17: a piece that changed is one of the instruction's own, and the table of those says which instruction it was. -/
theorem writersOfEachPiece : Obligations.WritersOfEachPiece := by
  intro i s t h
  have hframe := exec_frame_fault h
  have own {p : Piece} (hm : p ∈ .fault :: piecesWritten i) (hp : p ≠ .fault := by decide) : p ∈ piecesWritten i :=
    List.mem_of_ne_of_mem hp hm
  exact ⟨fun hne => index_mem_piecesWritten (own (not_imp_comm.mp hframe.i hne)),
    fun hne => stack_mem_piecesWritten (own (not_imp_comm.mp hframe.stack hne)),
    fun hne => sp_mem_piecesWritten (own (not_imp_comm.mp hframe.sp hne)),
    fun hne => dt_mem_piecesWritten (own (not_imp_comm.mp hframe.dt hne)),
    fun hne => st_mem_piecesWritten (own (not_imp_comm.mp hframe.st hne)),
    fun ⟨a, hne⟩ => mem_mem_piecesWritten (own (not_imp_comm.mp (fun hn => hframe.mem hn a) hne)),
    fun hne => disp_mem_piecesWritten (own (not_imp_comm.mp hframe.disp hne)),
    hframe.key fun hm => key_not_mem_piecesWritten (own hm),
    fun hne => await_mem_piecesWritten (own (not_imp_comm.mp hframe.await hne)),
    fun hne => rndDraws_mem_piecesWritten (own (not_imp_comm.mp hframe.rndDraws hne))⟩

/-- Settles O50: a byte inside the image is the image's, and every other byte is the glyph table's or 0. -/
theorem resetContents : Obligations.ResetContents := by
  refine fun s image => ⟨fun hlen => ⟨_, resetWith_of_fits hlen s, ?_⟩, fun hlen => resetWith_of_long hlen s⟩
  have hbyte := (placeBytes_image hlen).2
  refine ⟨by simp [loaded, State.reset, State.readV], rfl, rfl, rfl, by simp [loaded, State.reset], rfl, rfl,
    fun a ha => ?glyphs, fun a ha ha' => ?low, fun j hj => ?image, fun a ha _ => ?above,
    fun px py => Display.get_blank px.val py.val, by simp [loaded, State.reset], rfl, rfl⟩
  case glyphs => exact (hbyte a).trans (if_neg (by omega))
  case low => exact (hbyte a).trans ((if_neg (by omega)).trans (Memory.background_of_ge ha))
  case image => exact (hbyte _).trans ((if_pos (by omega)).trans (by rw [Nat.add_sub_cancel_left]))
  case above => exact (hbyte a).trans ((if_neg (by omega)).trans (Memory.background_of_ge (by omega)))

end Sys2Proof.Machine

/-! ## Single accesses, and a store over the next instruction (20_memory.md) -/

namespace Sys2Proof.Machine

section
variable {s t : State}

/-! ### A read after a write (20_memory.md R42, R43) -/

theorem memRead_set_same {m : Memory} {a : Nat} (h : a < Config.memSize) (v : Byte) : memRead (m.set a v) a = .ok v := by
  rw [memRead_ok h, Memory.get_set, if_pos rfl]

/-- A read at another address does not see the write, and above 0xFFF it faults as before. -/
theorem memRead_set_of_ne {a b : Nat} (h : b ≠ a) (m : Memory) (v : Byte) : memRead (m.set a v) b = memRead m b := by
  by_cases hb : b < Config.memSize
  · rw [memRead_ok hb, memRead_ok hb, Memory.get_set, if_neg h]
  · rw [memRead_error (by omega), memRead_error (by omega)]

/-! ### register-dump (43_index_memory.md R124) -/

/-- All addresses in memory: `V[0]..V[x]` stand from `I` on, and every other byte is as before. -/
theorem exec_dump_of_fits {x : Reg} (h : s.i.toNat + x.val ≤ 0xFFF) :
    ∃ m, exec (.dump x) s = .next (State.advance { s with mem := m }) ∧
      (∀ j : Reg, j ≤ x → m.get (s.i.toNat + j.val) = s.readV j) ∧
      ∀ a, a < s.i.toNat ∨ s.i.toNat + x.val < a → m.get a = s.mem.get a := by
  have hlen := s.length_regsUpTo x
  obtain ⟨m, hexec, -, hget⟩ := s.storeAtIndex_ok (s.regsUpTo x) (by omega)
  refine ⟨m, hexec, fun j hj => ?_, fun a ha => (hget a).trans (if_neg (by omega))⟩
  have hj' : j.val ≤ x.val := hj
  rw [hget, if_pos (by omega), Nat.add_sub_cancel_left, s.regsUpTo_getD x j hj']

theorem exec_dump_of_crosses {x : Reg} (h : 0xFFF < s.i.toNat + x.val) :
    exec (.dump x) s = s.raise .addressFault (lowestOffending s.i) := by
  have hlen := s.length_regsUpTo x
  exact s.storeAtIndex_error _ (List.ne_nil_of_length_eq_add_one hlen) (by omega)

/-- A register-dump that leaves no fault latched had its addresses in memory and stored its registers there. -/
theorem exec_dump_completed {x : Reg} (h : exec (.dump x) s = .next t) (ht : t.fault = none) :
    s.i.toNat + x.val ≤ 0xFFF ∧ ∀ j : Reg, j ≤ x → t.mem.get (s.i.toNat + j.val) = s.readV j := by
  by_cases hfits : s.i.toNat + x.val ≤ 0xFFF
  · obtain ⟨m, hexec, hstored, -⟩ := exec_dump_of_fits hfits
    cases hexec.symm.trans h
    exact ⟨hfits, hstored⟩
  · cases (exec_dump_of_crosses (by omega)).symm.trans h
    cases ht

end

/-! ### The statements of the family 20_memory.md -/

/-- Settles O35: the memory a write gives is `Memory.set`, whose bytes `Memory.get_set` tells. -/
theorem memReadAndMemWrite : Obligations.MemReadAndMemWrite := by
  intro m a v
  refine ⟨fun ha => ?inside, fun ha => ?above⟩
  case inside =>
    have hlt : a < Config.memSize := Nat.lt_succ_of_le ha
    exact ⟨memRead_ok hlt, m.set a v, memWrite_ok hlt v, memRead_set_same hlt v,
      fun b hb => memRead_set_of_ne hb m v, fun hm => Memory.wf_set hm hlt v⟩
  case above => exact ⟨memRead_error ha, memWrite_error ha v⟩

/-- Settles O36: the dump stored `V[j]` and `V[j+1]` at the two addresses the fetch reads, both of them in memory. -/
theorem storeSeenByNextFetch : Obligations.StoreSeenByNextFetch := by
  intro s t x j hj _ h ht hjx hpc
  obtain ⟨hfits, hstored⟩ := exec_dump_completed h ht
  have hfirst := hstored ⟨j, by omega⟩ (show j ≤ x.val by omega)
  have hsecond := hstored ⟨j + 1, by omega⟩ hjx
  have hroom : s.i.toNat + j + 1 < 0x1000 := by omega
  rw [hpc, fetchWord_ok hroom, hfirst, Nat.add_assoc, hsecond]

end Sys2Proof.Machine

/-! ## Words and instructions (30_encoding.md)

The encoder and the decoder are inverse to each other (`decode_encode`, `encode_of_decode`), and every rejection carries the raw
word (`eq_unknown_of_decode_error`). The opcode table is tied to both by `keyMask`, the bits that hold a word's family and sub-key:
the word of an instruction fits its row (`row_fits_encode`), and a row that a word fits is the word's own key bits (`row_of_fits`),
so it is the only one, and the word is legal (`wellFormedWord_of_fits`). -/

namespace Sys2Proof

/-! ### Decoding an encoded instruction (R61, R64, R66), format by format -/

theorem decode_encode (i : Instr) : decode (encode i) = .ok i := by
  cases i with
  | cls | ret => rfl
  | jp nnn | call nnn | ldI nnn | jpV0 nnn => simp [encode, decode, fieldF_wordA, fieldNNN_wordA]
  | seImm x kk | sneImm x kk | ldImm x kk | addImm x kk | rnd x kk =>
    simp [encode, decode, fieldF_wordI, fieldX_wordI, fieldKK_wordI]
  | seReg x y | sneReg x y | drw x y n => simp [encode, decode, fieldF_wordR, fieldX_wordR, fieldY_wordR, fieldN_wordR]
  | ldReg x y | orReg x y | andReg x y | xorReg x y | addReg x y | subReg x y | shr x y | subn x y | shl x y =>
    simp [encode, decode, decodeAlu, fieldF_wordR, fieldX_wordR, fieldY_wordR, fieldN_wordR]
  | skp x | sknp x => simp [encode, decode, decodeKeySkip, fieldF_wordI, fieldX_wordI, fieldKK_wordI]
  | ldVxDT x | ldVxK x | ldDTVx x | ldSTVx x | addI x | ldF x | ldB x | dump x | load x =>
    simp [encode, decode, decodeMisc, fieldF_wordI, fieldX_wordI, fieldKK_wordI]

section
variable {w : Word} {i : Instr}

/-! ### Encoding a decoded instruction: the fixed fields are those the decoder looked at, the others those it read -/

theorem wordA_of_family {f : BitVec 4} (hf : fieldF w = f) : wordA f (fieldNNN w) = w := hf ▸ wordA_fields w

theorem wordI_of_family {f : BitVec 4} (hf : fieldF w = f) : wordI f (fieldX w) (fieldKK w) = w := hf ▸ wordI_fields w

theorem wordI_of_keys {f : BitVec 4} {kk : Byte} (hf : fieldF w = f) (hk : fieldKK w = kk) : wordI f (fieldX w) kk = w :=
  hk ▸ wordI_of_family hf

theorem wordR_of_keys {f n : BitVec 4} (hf : fieldF w = f) (hn : fieldN w = n) : wordR f (fieldX w) (fieldY w) n = w :=
  hf ▸ hn ▸ wordR_fields w

theorem encode_of_decodeExact (h : decodeExact w = .ok i) : encode i = w := by
  unfold decodeExact at h
  split_ifs at h with h0 h1 <;> cases h
  · exact h0.symm
  · exact h1.symm

theorem encode_of_decodeAlu (hf : fieldF w = 0x8) (h : decodeAlu w = .ok i) : encode i = w := by
  unfold decodeAlu at h
  split at h
  case h_10 => cases h
  all_goals next hn => cases h; exact wordR_of_keys hf (BitVec.eq_of_toNat_eq hn)

theorem encode_of_decodeKeySkip (hf : fieldF w = 0xE) (h : decodeKeySkip w = .ok i) : encode i = w := by
  unfold decodeKeySkip at h
  split_ifs at h with h0 h1 <;> cases h
  · exact wordI_of_keys hf h0
  · exact wordI_of_keys hf h1

theorem encode_of_decodeMisc (hf : fieldF w = 0xF) (h : decodeMisc w = .ok i) : encode i = w := by
  unfold decodeMisc at h
  split_ifs at h <;> cases h <;> exact wordI_of_keys hf ‹_›

theorem encode_of_decode (h : decode w = .ok i) : encode i = w := by
  unfold decode at h
  split at h
  case h_1 => exact encode_of_decodeExact h
  case h_9 hf => exact encode_of_decodeAlu (BitVec.eq_of_toNat_eq hf) h
  case h_15 hf => exact encode_of_decodeKeySkip (BitVec.eq_of_toNat_eq hf) h
  case h_16 =>
    have hlt := (fieldF w).isLt
    simp only [imp_false] at *
    exact encode_of_decodeMisc (BitVec.eq_of_toNat_eq (show (fieldF w).toNat = 15 by omega)) h
  case h_6 hf | h_10 hf =>
    split_ifs at h with hn
    cases h
    exact wordR_of_keys (BitVec.eq_of_toNat_eq hf) hn
  case h_2 hf | h_3 hf | h_11 hf | h_12 hf => cases h; exact wordA_of_family (BitVec.eq_of_toNat_eq hf)
  case h_4 hf | h_5 hf | h_7 hf | h_8 hf | h_13 hf => cases h; exact wordI_of_family (BitVec.eq_of_toNat_eq hf)
  case h_14 hf => cases h; exact wordR_of_keys (BitVec.eq_of_toNat_eq hf) rfl

/-! ### Every rejection carries the raw word (R67) -/

theorem eq_unknown_of_decode_error {e : DecodeError} (h : decode w = .error e) : e = .unknown w := by
  unfold decode decodeExact decodeAlu decodeKeySkip decodeMisc at h
  repeat' split at h
  all_goals cases h <;> rfl

/-! ### The bits a mask keeps -/

theorem and_familyMask (w : Word) : w &&& 0xF000 = wordA (fieldF w) 0 := by
  calc w &&& 0xF000 = wordA (fieldF w) (fieldNNN w) &&& wordA (.allOnes 4) 0 := by rw [wordA_fields]; rfl
    _ = (fieldF w &&& .allOnes 4) ++ (fieldNNN w &&& 0#12) := BitVec.and_append
    _ = wordA (fieldF w) 0 := by rw [BitVec.and_allOnes, BitVec.and_zero]; rfl

theorem and_byteMask (w : Word) : w &&& 0xF0FF = wordI (fieldF w) 0 (fieldKK w) := by
  calc w &&& 0xF0FF = wordI (fieldF w) (fieldX w) (fieldKK w) &&& wordI (.allOnes 4) 0 (.allOnes 8) := by rw [wordI_fields]; rfl
    _ = (fieldF w &&& .allOnes 4) ++ (.ofFin (fieldX w) &&& 0#4) ++ (fieldKK w &&& .allOnes 8) := by
      rw [← BitVec.and_append, ← BitVec.and_append]; rfl
    _ = wordI (fieldF w) 0 (fieldKK w) := by rw [BitVec.and_allOnes, BitVec.and_zero, BitVec.and_allOnes]; rfl

theorem and_nibbleMask (w : Word) : w &&& 0xF00F = wordR (fieldF w) 0 0 (fieldN w) := by
  calc w &&& 0xF00F = wordR (fieldF w) (fieldX w) (fieldY w) (fieldN w) &&& wordR (.allOnes 4) 0 0 (.allOnes 4) := by
        rw [wordR_fields]; rfl
    _ = (fieldF w &&& .allOnes 4) ++ (.ofFin (fieldX w) &&& 0#4) ++ (.ofFin (fieldY w) &&& 0#4) ++ (fieldN w &&& .allOnes 4) := by
      rw [← BitVec.and_append, ← BitVec.and_append, ← BitVec.and_append]; rfl
    _ = wordR (fieldF w) 0 0 (fieldN w) := by
      rw [BitVec.and_allOnes, BitVec.and_zero, BitVec.and_zero, BitVec.and_allOnes]; rfl

theorem and_fullMask (w : Word) : w &&& 0xFFFF = w := BitVec.and_allOnes

/-! ### The rows of spec/opcode_table.json and the instructions -/

/-- The word of an instruction has the bits its row fixes, format by format. -/
theorem row_fits_encode (i : Instr) : i.row.fits (encode i) = true := by
  cases i with
  | cls | ret => rfl
  | jp nnn | call nnn | ldI nnn | jpV0 nnn =>
    simp only [OpcodeRow.fits, Instr.row, encode, and_familyMask, fieldF_wordA]
    rfl
  | seImm x kk | sneImm x kk | ldImm x kk | addImm x kk | rnd x kk =>
    simp only [OpcodeRow.fits, Instr.row, encode, and_familyMask, fieldF_wordI]
    rfl
  | drw x y n =>
    simp only [OpcodeRow.fits, Instr.row, encode, and_familyMask, fieldF_wordR]
    rfl
  | seReg x y | ldReg x y | orReg x y | andReg x y | xorReg x y | addReg x y | subReg x y | shr x y | subn x y | shl x y
  | sneReg x y =>
    simp only [OpcodeRow.fits, Instr.row, encode, and_nibbleMask, fieldF_wordR, fieldN_wordR]
    rfl
  | skp x | sknp x | ldVxDT x | ldVxK x | ldDTVx x | ldSTVx x | addI x | ldF x | ldB x | dump x | load x =>
    simp only [OpcodeRow.fits, Instr.row, encode, and_byteMask, fieldF_wordI, fieldKK_wordI]
    rfl

theorem row_mem_opcodeRows (i : Instr) : i.row ∈ opcodeRows := by
  cases i <;> simp [Instr.row, opcodeRows]

theorem row_fits_of_decode (h : decode w = .ok i) : i.row.fits w = true := encode_of_decode h ▸ row_fits_encode i

/-! ### The rows and the words that fit them -/

/-- The bits that decide which row a word can be of: its family and the sub-key its family uses (R62, R64). -/
def keyMask (w : Word) : Word :=
  match (family w).toNat with
  | 0x0 => 0xFFFF
  | 0x5 | 0x8 | 0x9 => 0xF00F
  | 0xE | 0xF => 0xF0FF
  | _ => 0xF000

theorem keyMask_cases (w : Word) :
    keyMask w = 0xFFFF ∨
    keyMask w = 0xF00F ∧ family w ∈ ([0x5, 0x8, 0x9] : List (BitVec 4)) ∨
    keyMask w = 0xF0FF ∧ family w ∈ ([0xE, 0xF] : List (BitVec 4)) ∨
    keyMask w = 0xF000 ∧ family w ∉ ([0x0, 0x5, 0x8, 0x9, 0xE, 0xF] : List (BitVec 4)) := by
  unfold keyMask
  generalize family w = f
  revert f
  decide

theorem keyMask_congr {p : Word} (h : family w = family p) : keyMask w = keyMask p := by
  simp only [keyMask, h]

/-- Every key mask keeps the family. -/
theorem family_and_keyMask (w p : Word) : family (w &&& keyMask p) = family w := by
  rcases keyMask_cases p with h | ⟨h, -⟩ | ⟨h, -⟩ | ⟨h, -⟩ <;> rw [h]
  · rw [and_fullMask]
  · rw [and_nibbleMask, family_wordR, fieldF_eq_family]
  · rw [and_byteMask, family_wordI, fieldF_eq_family]
  · rw [and_familyMask, family_wordA, fieldF_eq_family]

theorem wellFormedWord_congr_nibble {p : Word} (hw : family w ∈ ([0x5, 0x8, 0x9] : List (BitVec 4))) (hf : family p = family w)
    (hn : lowNibble p = lowNibble w) : wellFormedWord p = wellFormedWord w := by
  simp only [List.mem_cons, List.not_mem_nil, or_false] at hw
  rcases hw with hw | hw | hw <;>
    simp [wellFormedWord, exactOk, skipEqOk, aluOk, skipNeOk, keySkipOk, miscOk, hf, hw, hn]

theorem wellFormedWord_congr_byte {p : Word} (hw : family w ∈ ([0xE, 0xF] : List (BitVec 4))) (hf : family p = family w)
    (hk : lowByte p = lowByte w) : wellFormedWord p = wellFormedWord w := by
  simp only [List.mem_cons, List.not_mem_nil, or_false] at hw
  rcases hw with hw | hw <;>
    simp [wellFormedWord, exactOk, skipEqOk, aluOk, skipNeOk, keySkipOk, miscOk, hf, hw, hk]

/-- Whether R65 lists a word is told by its key bits. -/
theorem wellFormedWord_and_keyMask (w : Word) : wellFormedWord (w &&& keyMask w) = wellFormedWord w := by
  have hkeep := family_and_keyMask w w
  rcases keyMask_cases w with h | ⟨h, hf⟩ | ⟨h, hf⟩ | ⟨h, hf⟩ <;> rw [h] at hkeep ⊢
  · rw [and_fullMask]
  · exact wellFormedWord_congr_nibble hf hkeep (by rw [and_nibbleMask, lowNibble_wordR, fieldN_eq_lowNibble])
  · exact wellFormedWord_congr_byte hf hkeep (by rw [and_byteMask, lowByte_wordI, fieldKK_eq_lowByte])
  · rw [wellFormedWord_of_family hf, wellFormedWord_of_family (hkeep ▸ hf)]

theorem opcodeRows_keyMask : ∀ r ∈ opcodeRows, r.mask = keyMask r.pattern ∧ wellFormedWord r.pattern = true := by decide

/-- The row a word fits is its key bits: no word fits two rows. -/
theorem row_of_fits {r : OpcodeRow} (hr : r ∈ opcodeRows) (h : r.fits w = true) : r = ⟨keyMask w, w &&& keyMask w⟩ := by
  have hmask : r.mask = keyMask r.pattern := (opcodeRows_keyMask r hr).1
  have hpattern : w &&& r.mask = r.pattern := eq_of_beq h
  have hfamily : family r.pattern = family w := by rw [← hpattern, hmask, family_and_keyMask]
  rw [← keyMask_congr hfamily, ← hmask, hpattern]

theorem wellFormedWord_of_fits {r : OpcodeRow} (hr : r ∈ opcodeRows) (h : r.fits w = true) : wellFormedWord w = true := by
  have hlegal : wellFormedWord r.pattern = true := (opcodeRows_keyMask r hr).2
  rwa [row_of_fits hr h, wellFormedWord_and_keyMask] at hlegal

theorem wellFormedWord_of_decode (h : decode w = .ok i) : wellFormedWord w = true :=
  wellFormedWord_of_fits (row_mem_opcodeRows i) (row_fits_of_decode h)

/-- One of R65's illegal words is rejected with the raw opcode (R67). -/
theorem decode_of_illegal (hw : wellFormedWord w = false) : decode w = .error (.unknown w) := by
  cases hd : decode w with
  | error e => rw [eq_unknown_of_decode_error hd]
  | ok i => simp [wellFormedWord_of_decode hd] at hw

end

end Sys2Proof

namespace Sys2Proof.Machine

/-- A ready engine at an illegal word raises `DecodeFault`, however it executes instructions (R67). -/
theorem cycle_of_illegal (execute : Instr → State → Result) {s : State} (hr : s.Ready) (hpc : s.pc.toNat ≤ 0xFFE)
    (hw : wellFormedWord (s.wordAt s.pc.toNat) = false) : cycle execute s = s.raise .decodeFault (s.wordAt s.pc.toNat) := by
  obtain ⟨hf, ha⟩ := hr
  have hfetch : fetchWord s.mem s.pc.toNat = .ok (s.wordAt s.pc.toNat) :=
    fetchWord_ok (by simp only [Config.memSize]; omega)
  rw [cycle_of_ready execute hf ha, hfetch, State.onAccess_ok, decodeAndExecute, decode_of_illegal hw]

end Sys2Proof.Machine

/-! ### The statements of the family 30_encoding.md -/

namespace Sys2Proof

/-- Settles O1: each field the decoder looks at or reads is the one the encoder's format put there. -/
theorem decodeOfEncode : Obligations.DecodeOfEncode := decode_encode

/-- Settles O2: a word is put together again from the fields the decoder looked at and those it read. -/
theorem encodeOfDecode : Obligations.EncodeOfDecode := fun _ _ => encode_of_decode

/-- Settles O3: a word that decodes fits a row of the table, so R65 does not list it. -/
theorem illegalWordsAreUnknown : Obligations.IllegalWordsAreUnknown :=
  fun _ => ⟨decode_of_illegal, decode_of_wellFormedWord⟩

/-- Settles O4: a word that fits a row is legal and decodes, and the row of what it decodes to is the one row it fits. -/
theorem decoderFollowsOpcodeTable : Obligations.DecoderFollowsOpcodeTable := by
  refine fun w => ⟨fun i => row_fits_of_decode, fun r hr hfits => ?_⟩
  obtain ⟨i, hi⟩ := decode_of_wellFormedWord (wellFormedWord_of_fits hr hfits)
  have hrow := row_of_fits (row_mem_opcodeRows i) (row_fits_of_decode hi)
  exact ⟨i, hi, hrow.trans (row_of_fits hr hfits).symm⟩

/-- Settles O8: the decoder rejects the word fetched, and `raise` changes the latch alone. -/
theorem illegalWordRaisesDecodeFault : Obligations.IllegalWordRaisesDecodeFault :=
  fun _ => Machine.cycle_of_illegal Machine.exec

/-- Settles O5 by running the decoder on the eight words. -/
theorem sampleWordsDecode : Obligations.SampleWordsDecode := ⟨rfl, rfl, rfl, rfl, rfl, rfl, rfl, rfl⟩

end Sys2Proof

/-! ## What a `STEP` does and returns (40_step_cycle.md)

`executing_eq_some_iff` says that the model's `State.executing` is the instruction of `State.About`; what a `STEP` returns follows
from it. `eq_latched_of_fault` says what a faulting instruction leaves behind, `exec_pc` where a completed one leaves `pc`. -/

namespace Sys2Proof.Machine

section
variable {s t : State}

/-! ### The instruction a `STEP` executes (R80 steps 1 to 4) -/

theorem executing_of_not_ready (h : ¬ s.Ready) : s.executing = none := by
  unfold State.executing
  split
  next hf ha => exact absurd ⟨hf, ha⟩ h
  · rfl

theorem executing_of_high_pc (hr : s.Ready) (hpc : 0xFFF ≤ s.pc.toNat) : s.executing = none := by
  obtain ⟨hf, ha⟩ := hr
  have hfetch : fetchWord s.mem s.pc.toNat = .error (max s.pc.toNat Config.memSize) :=
    fetchWord_error (by simp only [Config.memSize]; omega)
  simp only [State.executing, hf, ha, hfetch]

theorem executing_of_fetched (hr : s.Ready) (hpc : s.pc.toNat ≤ 0xFFE) :
    s.executing = (decode (s.wordAt s.pc.toNat)).toOption := by
  obtain ⟨hf, ha⟩ := hr
  have hfetch : fetchWord s.mem s.pc.toNat = .ok (s.wordAt s.pc.toNat) :=
    fetchWord_ok (by simp only [Config.memSize]; omega)
  simp only [State.executing, hf, ha, hfetch]
  cases decode (s.wordAt s.pc.toNat) <;> rfl

theorem executing_eq_some_iff {i : Instr} : s.executing = some i ↔ s.About i := by
  by_cases hr : s.Ready
  · by_cases hpc : s.pc.toNat ≤ 0xFFE
    · have habout : s.About i ↔ decode (s.wordAt s.pc.toNat) = .ok i :=
        ⟨fun ⟨_, _, hd⟩ => hd, fun hd => ⟨hr, hpc, hd⟩⟩
      rw [habout, executing_of_fetched hr hpc]
      cases decode (s.wordAt s.pc.toNat) <;> simp [Except.toOption]
    · simp [State.About, hpc, executing_of_high_pc hr (by omega)]
  · rw [executing_of_not_ready hr]
    exact ⟨nofun, fun ha => absurd ha.1 hr⟩

/-! ### What it returns (R84) -/

theorem displayChanged_iff : s.displayChanged = true ↔ ∃ x y n, s.About (.drw x y n) := by
  simp only [← executing_eq_some_iff]
  unfold State.displayChanged
  split
  next x y n h => simp [h]
  next h => simpa using h

theorem displayChanged_of_about {i : Instr} :
    s.About i → s.displayChanged = (match i with | .drw _ _ _ => true | _ => false) := by
  intro h
  rw [State.displayChanged, executing_eq_some_iff.mpr h]
  cases i <;> rfl

theorem displayChanged_of_not_ready (h : ¬ s.Ready) : s.displayChanged = false := by
  rw [State.displayChanged, executing_of_not_ready h]

theorem stepResult_eq_ok_iff {b : Bool} : stepResult s t = .ok b ↔ t.fault = none ∧ s.displayChanged = b := by
  cases hf : t.fault <;> simp [stepResult, hf]

theorem stepResult_eq_fault_iff {f : FaultRecord} : stepResult s t = .fault f ↔ t.fault = some f := by
  cases hf : t.fault <;> simp [stepResult, hf]

/-! ### Faults of the fetch, and of the instruction (R81) -/

/-- A ready engine whose `pc` leaves no room for two bytes raises `AddressFault` (R81, 20_memory.md R53). -/
theorem cycle_of_high_pc (execute : Instr → State → Result) (hr : s.Ready) (hpc : 0xFFF ≤ s.pc.toNat) :
    cycle execute s = s.raise .addressFault (lowestOffending s.pc) := by
  rw [cycle_of_ready execute hr.1 hr.2, fetchWord_error (by simp only [Config.memSize]; omega), State.onAccess_error,
    ofNat_max_eq_lowestOffending]

theorem Faulted.eq_latched {f : FaultRecord} (h : Faulted s t) (ht : t.fault = some f) : t = { s with fault := some f } := by
  obtain ⟨g, -, -, rfl⟩ := h
  cases ht
  rfl

theorem not_faulted_of_completed (ht : t.fault = none) : ¬ Faulted s t := by
  rintro ⟨f, -, -, rfl⟩
  cases ht

theorem fault_not_mem_piecesWritten {i : Instr} : .fault ∉ piecesWritten i := by
  cases i <;> simp [piecesWritten]

/-- An instruction that ends with a fault latched where none was has changed nothing but the latch. -/
theorem eq_latched_of_fault {i : Instr} {f : FaultRecord} (h : Faulted s t ∨ Frame (piecesWritten i) s t)
    (hs : s.fault = none) (ht : t.fault = some f) : t = { s with fault := some f } := by
  rcases h with hf | hframe
  · exact hf.eq_latched ht
  · have hsame := hframe.fault fault_not_mem_piecesWritten
    simp [hs, ht] at hsame

/-! ### The next `pc` (R83) -/

theorem State.skipIf_pc_of_iff {c : Bool} {p : Prop} [Decidable p] (h : c = true ↔ p) :
    (s.skipIf c).pc = if p then s.pc + 4 else s.pc + 2 := if_congr h rfl rfl

theorem State.skipOnKey_pc {x : Reg} {w : Bool} (h : s.skipOnKey x w = .next t) (ht : t.fault = none) :
    t.pc = if s.key.toList[(s.readV x).toNat]? = some w then s.pc + 4 else s.pc + 2 := by
  rcases s.skipOnKey_cases x w with ⟨k, hk, he⟩ | ⟨-, he⟩
  · cases he.symm.trans h
    exact State.skipIf_pc_of_iff (by simp [hk])
  · cases he.symm.trans h
    cases ht

theorem zextAddr_add_zextByte (nnn : BitVec 12) (b : Byte) :
    zextAddr nnn + zextByte b = BitVec.ofNat 16 (nnn.toNat + b.toNat) := by
  apply BitVec.eq_of_toNat_eq
  rw [BitVec.toNat_add, zextAddr_toNat, zextByte_toNat, BitVec.toNat_ofNat]

theorem exec_pc {i : Instr} (h : exec i s = .next t) (ht : t.fault = none) : t.pc = successorPc i s := by
  have hno : ¬ Faulted s t := not_faulted_of_completed ht
  cases i with
  | ret =>
    obtain ⟨hpos, rfl⟩ := (exec_ret_next h).resolve_left hno
    simp [successorPc, List.getD_eq_getElem?_getD, show s.sp.val - 1 < 16 by omega]
  | call nnn =>
    obtain ⟨-, rfl⟩ := (exec_call_next h).resolve_left hno
    rfl
  | jpV0 nnn => cases h; exact zextAddr_add_zextByte nnn _
  | seImm _ _ | seReg _ _ => cases h; exact State.skipIf_pc_of_iff beq_iff_eq
  | sneImm _ _ | sneReg _ _ => cases h; exact State.skipIf_pc_of_iff bne_iff_ne
  | skp _ | sknp _ => exact State.skipOnKey_pc h ht
  | drw x y n => obtain rfl := (exec_drw_next h).resolve_left hno; rfl
  | load x => obtain rfl := (exec_load_next h).resolve_left hno; rfl
  | ldB x => obtain ⟨m, -, rfl⟩ := (exec_ldB_next h).resolve_left hno; rfl
  | dump x => obtain ⟨m, -, rfl⟩ := (exec_dump_next h).resolve_left hno; rfl
  | _ => cases h; rfl

theorem execWith_pc {rnd : Byte} {i : Instr} (h : execWith rnd i s = .next t) (ht : t.fault = none) :
    t.pc = successorPc i s := by
  rcases execWith_cases rnd i s with ⟨x, kk, rfl, he⟩ | he
  · cases he.symm.trans h
    rfl
  · exact exec_pc (he.symm.trans h) ht

end

/-! ### The statements of the family 40_step_cycle.md -/

/-- Settles O6: the word fetched decodes to the instruction, and the cycle hands it to the execution. -/
theorem stepRunsDecodedInstruction : Obligations.StepRunsDecodedInstruction :=
  fun _ _ h => ⟨cycle_of_about exec h, fun rnd => cycle_of_about (execWith rnd) h⟩

/-- Settles O7, check by check; each of them is the same for `step` and for `STEP(rnd)`, which differ in the execution alone. -/
theorem stepChecksInOrder : Obligations.StepChecksInOrder := by
  intro s rnd
  refine ⟨fun f hf => ?halted, fun r hf ha => ?suspended, fun hr hpc => ?fetch, fun hr hpc hd => ?illegal, fun i ha => ?runs⟩
  case halted => exact ⟨cycle_of_fault _ hf, cycle_of_fault _ hf, stepResult_eq_fault_iff.mpr hf⟩
  case suspended =>
    have hnot : ¬ s.Ready := fun hr => by cases ha.symm.trans hr.2
    exact ⟨cycle_of_waiting _ ha, cycle_of_waiting _ ha, stepResult_eq_ok_iff.mpr ⟨hf, displayChanged_of_not_ready hnot⟩⟩
  case fetch => exact ⟨cycle_of_high_pc _ hr hpc, cycle_of_high_pc _ hr hpc, stepResult_eq_fault_iff.mpr rfl⟩
  case illegal =>
    have hw := wellFormedWord_eq_false_of_decode_error hd
    exact ⟨cycle_of_illegal _ hr hpc hw, cycle_of_illegal _ hr hpc hw, stepResult_eq_fault_iff.mpr rfl⟩
  case runs =>
    have hrnd := cycle_of_about (execWith rnd) ha
    have hfree := cycle_of_about exec ha
    refine ⟨hrnd, hfree, fun t h => ⟨fun ht => stepResult_eq_ok_iff.mpr ⟨ht, displayChanged_of_about ha⟩, fun f ht => ?_⟩⟩
    have hends : Faulted s t ∨ Frame (piecesWritten i) s t :=
      h.elim (fun h => execWith_frame (hrnd.symm.trans h)) fun h => exec_frame (hfree.symm.trans h)
    exact ⟨eq_latched_of_fault hends ha.1.1 ht, stepResult_eq_fault_iff.mpr ht⟩

/-- Settles O9: a completed `STEP` returns `display_changed`, which says that the instruction it is about is draw. -/
theorem displayChangedExactlyOnDraw : Obligations.DisplayChangedExactlyOnDraw := by
  intro s t _
  refine ⟨?_, ?_, fun f => stepResult_eq_fault_iff⟩
  · rw [stepResult_eq_ok_iff, displayChanged_iff]
  · rw [stepResult_eq_ok_iff, ← displayChanged_iff, Bool.not_eq_true]

/-- Settles O15: the `STEP` is the instruction it is about, which goes where R83's table says. -/
theorem successorPcTable : Obligations.SuccessorPcTable :=
  fun _ _ _ rnd ha h ht => execWith_pc ((cycle_of_about (execWith rnd) ha).symm.trans h) ht

end Sys2Proof.Machine

/-! ## Control transfer (41_flow.md)

`encodes_of_encode` and the three word formats as sums of their fields give an instruction's word; a control transfer changes `pc`
alone (`State.goto_frame`), but for return and call, which move `sp` and so have latched no fault (`exec_frame_of_sp_ne`). -/

namespace Sys2Proof

/-! ### The word of each format as a sum of its fields (30_encoding.md R61) -/

theorem wordA_eq_ofNat {f : BitVec 4} {base : Nat} (h : f.toNat * 4096 = base) (nnn : BitVec 12) :
    wordA f nnn = BitVec.ofNat 16 (base + nnn.toNat) := by
  rw [← h, ← wordA_toNat, BitVec.ofNat_toNat, BitVec.setWidth_eq]

theorem wordI_eq_ofNat {f : BitVec 4} {base : Nat} (h : f.toNat * 4096 = base) (x : Reg) (kk : Byte) :
    wordI f x kk = BitVec.ofNat 16 (base + 256 * x.val + kk.toNat) := by
  rw [← h, Nat.mul_comm 256, ← wordI_toNat, BitVec.ofNat_toNat, BitVec.setWidth_eq]

theorem wordR_eq_ofNat {f n : BitVec 4} {base : Nat} (h : f.toNat * 4096 + n.toNat = base) (x y : Reg) :
    wordR f x y n = BitVec.ofNat 16 (base + 256 * x.val + 16 * y.val) := by
  have hsum : base + 256 * x.val + 16 * y.val = (wordR f x y n).toNat := by
    rw [wordR_toNat]
    omega
  rw [hsum, BitVec.ofNat_toNat, BitVec.setWidth_eq]

end Sys2Proof

namespace Sys2Proof.Machine

section
variable {s t : State}

theorem encodes_of_encode {i : Instr} {w : Word} (h : encode i = w) : Encodes i w := ⟨h, h ▸ decode_encode i⟩

/-- The word of a call (R92), which a `StackOverflow` records. -/
theorem encode_call (nnn : BitVec 12) : encode (.call nnn) = BitVec.ofNat 16 (0x2000 + nnn.toNat) := wordA_eq_ofNat rfl nnn

/-- An instruction that moves `sp` has latched no fault, so it changes no piece but its own. -/
theorem exec_frame_of_sp_ne {i : Instr} (h : exec i s = .next t) (hsp : t.sp ≠ s.sp) : Frame (piecesWritten i) s t :=
  (exec_frame h).resolve_left fun hf => hsp (hf.frame.sp (by decide))

theorem State.skipIf_pc_of_iff_not {c : Bool} {p : Prop} [Decidable p] (h : c = true ↔ ¬ p) :
    (s.skipIf c).pc = if p then s.pc + 2 else s.pc + 4 := (State.skipIf_pc_of_iff h).trans (ite_not ..)

end

/-! ### The statements of the family 41_flow.md -/

/-- Settles O18: a pop that finds a return address, and the fault of an empty stack. -/
theorem returnPops : Obligations.ReturnPops := by
  intro s
  refine ⟨encodes_of_encode rfl, fun hpos => ?popped, fun hempty => exec_ret_of_empty s hempty⟩
  case popped =>
    have hexec := exec_ret_of_pos s hpos
    exact ⟨_, hexec, rfl, rfl, exec_frame_of_sp_ne hexec (Fin.ne_of_val_ne (Nat.sub_one_lt_of_lt hpos).ne)⟩

/-- Settles O20: a push that finds room, and the fault of a full stack, whose `op` is the call's word. -/
theorem callPushes : Obligations.CallPushes := by
  intro s nnn
  refine ⟨encodes_of_encode (encode_call nnn), fun hroom => ?pushed, fun hfull => ?overflow⟩
  case pushed =>
    have hexec := exec_call_of_room s nnn hroom
    refine ⟨_, hexec, fun j => ?_, rfl, zextAddr_toNat nnn,
      exec_frame_of_sp_ne hexec (Fin.ne_of_val_ne (Nat.succ_ne_self _))⟩
    rw [State.goto_stack, Vector.getElem_set, if_congr eq_comm rfl rfl]
  case overflow => rw [exec_call_of_full s nnn hfull, encode_call]; rfl

/-- Settles O21: the slot below the `sp` that the call left is the one it wrote, and the return pops it. -/
theorem callThenReturn : Obligations.CallThenReturn := by
  intro s t u nnn hroom hcall hsp hslot
  obtain ⟨-, hpushed, -⟩ := callPushes s nnn
  obtain ⟨t', hcall', hslots, htsp, -⟩ := hpushed hroom
  cases hcall'.symm.trans hcall
  have husp : u.sp.val = s.sp.val + 1 := by rw [hsp, htsp]
  obtain ⟨-, hpopped, -⟩ := returnPops u
  obtain ⟨w, hret, hwsp, hwpc, -⟩ := hpopped (by omega)
  have hdepth : u.sp.val - 1 = s.sp.val := by omega
  refine ⟨w, hret, ?_, Fin.ext (hwsp.trans hdepth)⟩
  calc w.pc = u.stack[u.sp.val - 1] := hwpc
    _ = u.stack[s.sp.val] := by simp only [hdepth]
    _ = t.stack[s.sp.val] := hslot
    _ = s.pc + 2 := (hslots ⟨s.sp.val, hroom⟩).trans (if_pos rfl)

/-- Settles O19: both targets, read as numbers, are below 2^16. -/
theorem jumpsSetPc : Obligations.JumpsSetPc := by
  intro s nnn
  refine ⟨⟨encodes_of_encode (wordA_eq_ofNat rfl nnn), _, rfl, zextAddr_toNat nnn, State.goto_frame _⟩,
    encodes_of_encode (wordA_eq_ofNat rfl nnn), _, rfl, ?offset, State.goto_frame _⟩
  case offset =>
    -- the sum is at most 0x0FFF + 0xFF, so it does not wrap modulo 2^16 (R93)
    rw [State.goto_pc, zextAddr_add_zextByte, BitVec.toNat_ofNat]
    omega

/-- Settles O22: each skip is `skipIf` on its comparison. -/
theorem valueSkips : Obligations.ValueSkips := by
  intro s x y kk
  exact ⟨⟨encodes_of_encode (wordI_eq_ofNat rfl x kk), _, rfl, State.skipIf_pc_of_iff beq_iff_eq, State.goto_frame _⟩,
    ⟨encodes_of_encode (wordI_eq_ofNat rfl x kk), _, rfl, State.skipIf_pc_of_iff_not bne_iff_ne, State.goto_frame _⟩,
    ⟨encodes_of_encode (wordR_eq_ofNat rfl x y), _, rfl, State.skipIf_pc_of_iff beq_iff_eq, State.goto_frame _⟩,
    ⟨encodes_of_encode (wordR_eq_ofNat rfl x y), _, rfl, State.skipIf_pc_of_iff_not bne_iff_ne, State.goto_frame _⟩⟩

end Sys2Proof.Machine

/-! ## Register arithmetic and logic (42_alu.md)

`State.setV_completes` and `State.setVFlag_completes` say once what the two shapes of these instructions do; the statements add the
instruction's word and what its result and its flag are as numbers. -/

namespace Sys2Proof.Machine

/-! ### The two shapes: a result alone, and a result with the flag after it (R111) -/

section
variable (s : State) (x : Reg)

/-- `V[x]` is set, every other register stays, `pc` moves on. -/
theorem State.setV_completes (b : Byte) : ∃ t, s.setV x b = .next t ∧ t.readV x = b ∧ (∀ r, r ≠ x → t.readV r = s.readV r) ∧
    t.pc = s.pc + 2 ∧ Frame [.v, .pc] s t :=
  ⟨_, rfl, (s.readV_writeV x x b).trans (if_pos rfl), fun _ => State.setV_readV_of_ne rfl, rfl, State.setV_frame rfl⟩

/-- `VF` holds the flag for every `x`, since it is written last; `V[x]` holds the result when it is another register. -/
theorem State.setVFlag_completes (b : Byte) (f : Bool) : ∃ t, s.setVFlag x b f = .next t ∧ (x ≠ 15 → t.readV x = b) ∧
    t.readV 15 = flagByte f ∧ (∀ r, r ≠ x → r ≠ 15 → t.readV r = s.readV r) ∧ t.pc = s.pc + 2 ∧ Frame [.v, .pc] s t := by
  refine ⟨_, rfl, fun hx => ?result, ?flag, fun _ => State.setVFlag_readV_of_ne rfl, rfl, State.setVFlag_frame rfl⟩
  case result => rw [State.readV_advance, State.readV_writeWithFlag, if_neg hx, if_pos rfl]
  case flag => rw [State.readV_advance, State.readV_writeWithFlag, if_pos rfl]

end

/-! ### Results and flags as numbers -/

section
variable (a b : Byte)

theorem flagByte_carryOut : flagByte (carryOut a b) = if a.toNat + b.toNat > 255 then 1 else 0 :=
  if_congr decide_eq_true_iff rfl rfl

theorem flagByte_noBorrow : flagByte (noBorrow a b) = if a.toNat ≥ b.toNat then 1 else 0 :=
  if_congr decide_eq_true_iff rfl rfl

theorem flagByte_toNat (f : Bool) : (flagByte f).toNat = f.toNat := by cases f <;> rfl

theorem flagByte_evictedLow : (flagByte (evictedLow a)).toNat = a.toNat % 2 := by
  rw [flagByte_toNat, evictedLow, BitVec.getLsbD, Nat.toNat_testBit, pow_zero, Nat.div_one]

theorem flagByte_evictedHigh : (flagByte (evictedHigh a)).toNat = a.toNat / 128 := by
  rw [flagByte_toNat, evictedHigh, BitVec.getLsbD, Nat.toNat_testBit]
  omega

theorem toNat_sub_eq_emod : ((a - b).toNat : Int) = (a.toNat - b.toNat : Int) % 256 := by
  rw [BitVec.toNat_sub]
  omega

theorem toNat_and_le : (a &&& b).toNat ≤ b.toNat := by
  rw [BitVec.toNat_and]
  exact Nat.and_le_right

end

/-! ### The subtractions (R107, R109) -/

/-- Both subtractions, which differ in the order of the operands alone. -/
theorem State.difference_completes (s : State) (x : Reg) (a b : Byte) : ∃ t, s.setVFlag x (a - b) (noBorrow a b) = .next t ∧
    (x ≠ 15 → ((t.readV x).toNat : Int) = (a.toNat - b.toNat : Int) % 256) ∧
    t.readV 15 = (if a.toNat ≥ b.toNat then 1 else 0) ∧
    (∀ r, r ≠ x → r ≠ 15 → t.readV r = s.readV r) ∧ t.pc = s.pc + 2 ∧ Frame [.v, .pc] s t := by
  obtain ⟨t, ht, hdiff, hflag, hrest⟩ := s.setVFlag_completes x (a - b) (noBorrow a b)
  exact ⟨t, ht, fun hx => by rw [hdiff hx, toNat_sub_eq_emod], hflag.trans (flagByte_noBorrow a b), hrest⟩

/-! ### The shifts (R108, R110) -/

section
variable (src : Config.ShiftSrc) (x y : Reg) (s : State)

theorem shiftOperand_toNat :
    (shiftOperand src x y s).toNat = if src = .x then (s.readV x).toNat else (s.readV y).toNat := by
  cases src <;> rfl

theorem shiftRight_completes : ∃ t, shiftRight src x y s = .next t ∧
    (x ≠ 15 → (t.readV x).toNat = (shiftOperand src x y s).toNat / 2) ∧
    (t.readV 15).toNat = (shiftOperand src x y s).toNat % 2 ∧
    (∀ r, r ≠ x → r ≠ 15 → t.readV r = s.readV r) ∧ t.pc = s.pc + 2 ∧ Frame [.v, .pc] s t := by
  obtain ⟨t, ht, hresult, hflag, hrest⟩ := s.setVFlag_completes x (shiftOperand src x y s >>> 1) (evictedLow (shiftOperand src x y s))
  refine ⟨t, ht, fun hx => ?_, by rw [hflag, flagByte_evictedLow], hrest⟩
  rw [hresult hx, BitVec.toNat_ushiftRight, Nat.shiftRight_eq_div_pow, pow_one]

theorem shiftLeft_completes : ∃ t, shiftLeft src x y s = .next t ∧
    (x ≠ 15 → (t.readV x).toNat = (shiftOperand src x y s).toNat * 2 % 256) ∧
    (t.readV 15).toNat = (shiftOperand src x y s).toNat / 128 ∧
    (∀ r, r ≠ x → r ≠ 15 → t.readV r = s.readV r) ∧ t.pc = s.pc + 2 ∧ Frame [.v, .pc] s t := by
  obtain ⟨t, ht, hresult, hflag, hrest⟩ := s.setVFlag_completes x (shiftOperand src x y s <<< 1) (evictedHigh (shiftOperand src x y s))
  refine ⟨t, ht, fun hx => ?_, by rw [hflag, flagByte_evictedHigh], hrest⟩
  rw [hresult hx, BitVec.toNat_shiftLeft, Nat.shiftLeft_eq, pow_one]

end

/-! ### random-and (R112) -/

theorem randomAnd_completes (x : Reg) (kk rnd : Byte) (s : State) : ∃ t, randomAnd x kk rnd s = .next t ∧
    t.readV x = (rnd &&& kk) ∧ (t.readV x).toNat ≤ kk.toNat ∧ (∀ r, r ≠ x → t.readV r = s.readV r) ∧ t.pc = s.pc + 2 ∧
    Frame [.v, .pc] s t := by
  obtain ⟨t, ht, hx, hrest⟩ := s.setV_completes x (rnd &&& kk)
  exact ⟨t, ht, hx, by rw [hx]; exact toNat_and_le rnd kk, hrest⟩

theorem cycle_of_not_ready (execute : Instr → State → Result) {s : State} (h : ¬ s.Ready) : cycle execute s = .next s := by
  rcases cycle_cases execute s with ⟨-, hstays⟩ | ⟨hf, ha, -⟩
  · exact hstays
  · exact absurd ⟨hf, ha⟩ h

/-! ### The statements of the family 42_alu.md -/

/-- Settles O25: the flag is the carry, the result the sum modulo 256. -/
theorem addWithCarry : Obligations.AddWithCarry := by
  intro s x y
  obtain ⟨t, ht, hsum, hflag, hrest⟩ := s.setVFlag_completes x (s.readV x + s.readV y) (carryOut (s.readV x) (s.readV y))
  exact ⟨encodes_of_encode (wordR_eq_ofNat rfl x y), t, ht, fun hx => by rw [hsum hx, BitVec.toNat_add],
    hflag.trans (flagByte_carryOut _ _), hrest⟩

/-- Settles O26: one difference, with the operands in either order. -/
theorem subtractions : Obligations.Subtractions := by
  intro s x y
  exact ⟨⟨encodes_of_encode (wordR_eq_ofNat rfl x y), s.difference_completes x (s.readV x) (s.readV y)⟩,
    encodes_of_encode (wordR_eq_ofNat rfl x y), s.difference_completes x (s.readV y) (s.readV x)⟩

/-- Settles O27: the operand read as a number is that of the register `SHIFT_SRC` names. -/
theorem shiftsUnderEitherSource : Obligations.ShiftsUnderEitherSource := by
  intro s src x y
  simp only [← shiftOperand_toNat]
  exact ⟨⟨encodes_of_encode (wordR_eq_ofNat rfl x y), rfl, shiftRight_completes src x y s⟩,
    encodes_of_encode (wordR_eq_ofNat rfl x y), rfl, shiftLeft_completes src x y s⟩

/-- Settles O28: under the default (D16) both shifts are the shared ones with `V[x]` as operand. -/
theorem shiftsReadVxByDefault : Obligations.ShiftsReadVxByDefault := by
  intro s x y
  obtain ⟨t, ht, hresult, hflag, hothers, -, hframe⟩ := shiftRight_completes .x x y s
  obtain ⟨u, hu, uresult, uflag, uothers, -, uframe⟩ := shiftLeft_completes .x x y s
  exact ⟨⟨t, ht, hresult, hflag, hothers, hframe⟩, u, hu, uresult, uflag, uothers, uframe⟩

/-- Settles O29: `execWith` gives `rnd` to random-and alone, and a `STEP` that is not ready executes nothing. -/
theorem randomAndForEveryByte : Obligations.RandomAndForEveryByte := fun s x kk =>
  ⟨encodes_of_encode (wordI_eq_ofNat rfl x kk), fun rnd => randomAnd_completes x kk rnd s, fun _ _ hi => execWith_eq_exec hi s,
    fun rnd hstop => cycle_of_not_ready (execWith rnd) (not_and_of_not_or_not hstop)⟩

/-- Settles O23: two results without a flag. -/
theorem immediateLoadAndAdd : Obligations.ImmediateLoadAndAdd := by
  intro s x kk
  obtain ⟨t, ht, hsum, hrest⟩ := s.setV_completes x (s.readV x + kk)
  exact ⟨⟨encodes_of_encode (wordI_eq_ofNat rfl x kk), s.setV_completes x kk⟩,
    encodes_of_encode (wordI_eq_ofNat rfl x kk), t, ht, by rw [hsum, BitVec.toNat_add], hrest⟩

/-- Settles O24: four results without a flag, each known bit by bit. -/
theorem moveAndLogic : Obligations.MoveAndLogic := by
  intro s x y
  obtain ⟨t, ht, hor, hrest⟩ := s.setV_completes x (s.readV x ||| s.readV y)
  obtain ⟨u, hu, hand, urest⟩ := s.setV_completes x (s.readV x &&& s.readV y)
  obtain ⟨w, hw, hxor, wrest⟩ := s.setV_completes x (s.readV x ^^^ s.readV y)
  exact ⟨⟨encodes_of_encode (wordR_eq_ofNat rfl x y), s.setV_completes x (s.readV y)⟩,
    ⟨encodes_of_encode (wordR_eq_ofNat rfl x y), t, ht, fun k => by rw [hor, BitVec.getLsbD_or], hrest⟩,
    ⟨encodes_of_encode (wordR_eq_ofNat rfl x y), u, hu, fun k => by rw [hand, BitVec.getLsbD_and], urest⟩,
    ⟨encodes_of_encode (wordR_eq_ofNat rfl x y), w, hw, fun k => by rw [hxor, BitVec.getLsbD_xor], wrest⟩⟩

/-- Settles O55: random-and with the next free byte, on the state whose counter has moved on; a fault would have kept the counter. -/
theorem randomAndWithFreeByte : Obligations.RandomAndWithFreeByte := by
  intro s x kk
  obtain ⟨t, ht, hx, hle, hothers, hpc, hframe⟩ :=
    randomAnd_completes x kk (Config.rndByte s.rndDraws) { s with rndDraws := s.rndDraws + 1 }
  have hdraws : t.rndDraws = s.rndDraws + 1 := hframe.rndDraws (by decide)
  have hexec : exec (.rnd x kk) s = .next t := ht
  have hcompleted : ¬ Faulted s t := fun hf => Nat.succ_ne_self _ (hdraws.symm.trans (hf.frame.rndDraws (by decide)))
  exact ⟨t, hexec, ⟨_, hx⟩, hle, hothers, hpc, hdraws, (exec_frame hexec).resolve_left hcompleted⟩

end Sys2Proof.Machine

/-! ## Index register and memory transfer (43_index_memory.md)

`State.setIndex_completes` and `State.storeAtIndex_completes` say once what the two shapes that write `I` and memory do, and
`exec_load_completes` what a register-load does; the statements add the instruction's word and the bytes stored, and the faults are the
laws of an access that crosses 0xFFF. -/

namespace Sys2Proof

/-- A word of format X, whose `kk` is fixed, as a sum (30_encoding.md R61). -/
theorem wordX_eq_ofNat {f : BitVec 4} {kk : Byte} {base : Nat} (h : f.toNat * 4096 + kk.toNat = base) (x : Reg) :
    wordI f x kk = BitVec.ofNat 16 (base + 256 * x.val) := by
  rw [wordI_eq_ofNat rfl, ← h, Nat.add_right_comm]

end Sys2Proof

namespace Sys2Proof.Machine

section
variable (s : State)

/-! ### Writing the index (R120 to R122) -/

theorem State.setIndex_completes (a : Word) :
    ∃ t, s.setIndex a = .next t ∧ t.i = a ∧ t.pc = s.pc + 2 ∧ Frame [.i, .pc] s t :=
  ⟨_, rfl, rfl, rfl, State.setIndex_frame rfl⟩

/-- Five times the largest byte is below 2^16, so the glyph address does not wrap (R122). -/
theorem zextByte_mul_five_toNat (b : Byte) : (zextByte b * 5).toNat = b.toNat * 5 := by
  rw [BitVec.toNat_mul, zextByte_toNat]
  exact Nat.mod_eq_of_lt (show b.toNat * 5 < 2 ^ 16 by omega)

/-! ### Storing at the index (R123, R124) -/

/-- All addresses in memory: each byte stands at its offset from `I`, every other byte is as before, memory stays canonical. -/
theorem State.storeAtIndex_completes (bs : List Byte) (h : s.i.toNat + bs.length ≤ 0x1000) :
    ∃ t, s.storeAtIndex bs = .next t ∧ (∀ j < bs.length, t.byteAt (s.i.toNat + j) = bs.getD j 0) ∧
      (∀ a, a < s.i.toNat ∨ s.i.toNat + bs.length ≤ a → t.byteAt a = s.byteAt a) ∧
      (s.mem.wf = true → t.mem.wf = true) ∧ t.pc = s.pc + 2 ∧ Frame [.mem, .pc] s t := by
  obtain ⟨m, hstore, hwf, hget⟩ := s.storeAtIndex_ok bs h
  refine ⟨_, hstore, fun j hj => ?stored, fun a ha => ?kept, hwf, rfl, State.store_frame m⟩
  case stored => exact (hget _).trans ((if_pos (by omega)).trans (by rw [Nat.add_sub_cancel_left]))
  case kept => exact (hget a).trans (if_neg (by omega))

/-- The three digits are below 256, so each fills its byte without wrapping. -/
theorem bcdDigits_getD_toNat (b : Byte) :
    ((bcdDigits b).getD 0 0).toNat = b.toNat / 100 ∧ ((bcdDigits b).getD 1 0).toNat = b.toNat / 10 % 10 ∧
      ((bcdDigits b).getD 2 0).toNat = b.toNat % 10 := by
  have hb := b.isLt
  simp only [bcdDigits, List.getD_cons_zero, List.getD_cons_succ, BitVec.toNat_ofNat]
  omega

/-! ### Loading from the index (R125) -/

/-- All addresses in memory: `V[0]..V[x]` are the bytes from `I` on, and the registers above stay. -/
theorem exec_load_completes (x : Reg) (h : s.i.toNat + x.val ≤ 0xFFF) :
    ∃ t, exec (.load x) s = .next t ∧ (∀ r : Reg, r ≤ x → t.readV r = s.byteAt (s.i.toNat + r.val)) ∧
      (∀ r : Reg, x < r → t.readV r = s.readV r) ∧ t.pc = s.pc + 2 ∧ Frame [.v, .pc] s t := by
  refine ⟨_, exec_load_of_fits s x h, fun r hr => ?loaded, fun r hr => ?kept, rfl, ?frame⟩
  case loaded => exact (loadRegs_getElem _ _ r).trans (s.bytesAtIndex_getD (Nat.lt_succ_of_le hr) _)
  case kept => exact loadRegs_getElem_of_length_le (by rwa [State.length_bytesAtIndex])
  case frame => constructor <;> simp [State.byteAt]

end

/-! ### The statements of the family 43_index_memory.md -/

/-- Settles O30: each instruction sets `I` to one value, read as a number. -/
theorem indexRegisterWrites : Obligations.IndexRegisterWrites := by
  intro s x nnn
  obtain ⟨t, ht, hset, hrest⟩ := s.setIndex_completes (zextAddr nnn)
  obtain ⟨u, hu, hadd, urest⟩ := s.setIndex_completes (s.i + zextByte (s.readV x))
  obtain ⟨w, hw, hglyph, wrest⟩ := s.setIndex_completes (zextByte (s.readV x) * 5)
  exact ⟨⟨encodes_of_encode (wordA_eq_ofNat rfl nnn), t, ht, by rw [hset, zextAddr_toNat], hrest⟩,
    ⟨encodes_of_encode (wordX_eq_ofNat rfl x), u, hu, by rw [hadd, BitVec.toNat_add, zextByte_toNat], urest⟩,
    encodes_of_encode (wordX_eq_ofNat rfl x), w, hw, by rw [hglyph, zextByte_mul_five_toNat], wrest⟩

/-- Settles O31: the store of the three digits, or its fault. -/
theorem storeBcd : Obligations.StoreBcd := by
  intro s x
  refine ⟨encodes_of_encode (wordX_eq_ofNat rfl x), fun hfits => ?stored, fun hcross => ?fault⟩
  case stored =>
    obtain ⟨t, ht, hbytes, hothers, hrest⟩ :=
      s.storeAtIndex_completes (bcdDigits (s.readV x)) (Nat.succ_le_succ hfits)
    have hdigit : ∀ j < 3, t.byteAt (s.i.toNat + j) = (bcdDigits (s.readV x)).getD j 0 := hbytes
    obtain ⟨hhundreds, htens, hunits⟩ := bcdDigits_getD_toNat (s.readV x)
    exact ⟨t, ht, (congrArg _ (hdigit 0 (by decide))).trans hhundreds, (congrArg _ (hdigit 1 (by decide))).trans htens,
      (congrArg _ (hdigit 2 (by decide))).trans hunits, hothers, hrest⟩
  case fault => exact s.storeAtIndex_error _ (List.cons_ne_nil _ _) (Nat.succ_lt_succ hcross)

/-- Settles O32: the store of `V[0]..V[x]`, or its fault. -/
theorem registerDump : Obligations.RegisterDump := by
  intro s x
  refine ⟨encodes_of_encode (wordX_eq_ofNat rfl x), fun hfits => ?stored, fun hcross => exec_dump_of_crosses hcross⟩
  case stored =>
    have hlen := s.length_regsUpTo x
    obtain ⟨t, ht, hbytes, hothers, hrest⟩ := s.storeAtIndex_completes (s.regsUpTo x) (by omega)
    exact ⟨t, ht, fun r hr => (hbytes r (hlen ▸ Nat.lt_succ_of_le hr)).trans (s.regsUpTo_getD x r hr),
      fun a ha => hothers a (by omega), hrest⟩

/-- Settles O33: the load of `V[0]..V[x]`, or its fault. -/
theorem registerLoad : Obligations.RegisterLoad := fun s x =>
  ⟨encodes_of_encode (wordX_eq_ofNat rfl x), exec_load_completes s x, exec_load_of_crosses s x⟩

/-- Settles O34: the dump keeps `I`, so the load reads the bytes the dump stored. -/
theorem dumpThenLoadRoundTrip : Obligations.DumpThenLoadRoundTrip := by
  intro s t x v hfits hdump
  obtain ⟨-, hstores, -⟩ := registerDump s x
  obtain ⟨t', hdump', hstored, -, -, -, hframe⟩ := hstores hfits
  cases hdump'.symm.trans hdump
  have hi : t.i = s.i := hframe.i (by decide)
  obtain ⟨u, hload, hloaded, hkept, -⟩ := exec_load_completes { t with v := v } x (by rwa [hi])
  refine ⟨u, hload, fun r hr => ?_, hkept⟩
  calc u.readV r = t.byteAt (t.i.toNat + r.val) := hloaded r hr
    _ = t.byteAt (s.i.toNat + r.val) := by rw [hi]
    _ = s.readV r := hstored r hr

end Sys2Proof.Machine

/-! ## Display (44_display.md)

`Drawn` is what a completed draw does to every pixel and to `VF`; `drawn_drawSprite` reads it off the law of the whole sprite
(`blitRows_spec`), and the properties of R132 follow from it. -/

namespace Sys2Proof

/-- The word of a draw, the one of its format whose last nibble is an operand (30_encoding.md R61). -/
theorem encode_drw (x y : Reg) (n : BitVec 4) :
    encode (.drw x y n) = BitVec.ofNat 16 (0xD000 + 256 * x.val + 16 * y.val + n.toNat) := by
  have hsum : 0xD000 + n.toNat + 256 * x.val + 16 * y.val = 0xD000 + 256 * x.val + 16 * y.val + n.toNat := by omega
  rw [← hsum]
  exact wordR_eq_ofNat rfl x y

end Sys2Proof

namespace Sys2Proof.Machine

section
variable {s t u : State}

/-! ### Completing with `pc + 2` (40_step_cycle.md R83, R84) -/

/-- An instruction that moves `pc` on has latched no fault, so it changes no piece but its own. -/
theorem exec_frame_of_pc_eq {i : Instr} (h : exec i s = .next t) (hpc : t.pc = s.pc + 2) : Frame (piecesWritten i) s t := by
  refine (exec_frame h).resolve_left fun hf => ?_
  have hsame : s.pc + 2 = s.pc := hpc.symm.trans (hf.frame.pc (by decide))
  simp at hsame

theorem stepResult_of_about {i : Instr} {b : Bool} (hframe : Frame (piecesWritten i) s t) (ha : s.About i)
    (hb : s.displayChanged = b) : stepResult s t = .ok b :=
  stepResult_eq_ok_iff.mpr ⟨(hframe.fault fault_not_mem_piecesWritten).trans ha.1.1, hb⟩

/-! ### The pixels under a sprite -/

variable {x y : Reg} {n : BitVec 4}

theorem State.bytesAtIndex_getElem {k r : Nat} (h : r < (s.bytesAtIndex k).length) :
    (s.bytesAtIndex k)[r] = s.byteAt (s.i.toNat + r) := by
  simp [State.bytesAtIndex, State.byteAt]

/-- The pixels under the sprite of the law of the whole sprite are those of the statements; both reduce the coordinates. -/
theorem spriteHits_iff_spriteOn {ox oy k px py : Nat} :
    SpriteHits ox oy (s.bytesAtIndex k) px py ↔
      SpriteOn s ox oy s.i.toNat k (Fin.ofNat Config.W px) (Fin.ofNat Config.H py) := by
  constructor
  · rintro ⟨r, hr, hy, c, hc, hx, hbit⟩
    rw [State.bytesAtIndex_getElem] at hbit
    exact ⟨r, s.length_bytesAtIndex k ▸ hr, c, List.mem_range.mp hc, hx.symm, hy.symm, hbit⟩
  · rintro ⟨r, hr, c, hc, hx, hy, hbit⟩
    refine ⟨r, (s.length_bytesAtIndex k).symm ▸ hr, hy.symm, c, List.mem_range.mpr hc, hx.symm, ?_⟩
    rw [State.bytesAtIndex_getElem]
    exact hbit

theorem spriteHits_val_iff_spriteOn {ox oy k : Nat} {px : Fin Config.W} {py : Fin Config.H} :
    SpriteHits ox oy (s.bytesAtIndex k) px.val py.val ↔ SpriteOn s ox oy s.i.toNat k px py := by
  rw [spriteHits_iff_spriteOn, Fin.ofNat_val_eq_self, Fin.ofNat_val_eq_self]

/-- Every coordinate, reduced, is that of an observed pixel (10_state.md R19). -/
theorem Display.get_eq_pixel (px py : Nat) : s.disp.get px py = s.pixel (Fin.ofNat Config.W px) (Fin.ofNat Config.H py) :=
  Display.get_congr _ (Nat.mod_mod _ _).symm (Nat.mod_mod _ _).symm

/-- The same bytes at the same origin are the same sprite. -/
theorem spriteOn_congr {ox oy a b k : Nat} {px : Fin Config.W} {py : Fin Config.H}
    (h : ∀ r < k, u.byteAt (b + r) = s.byteAt (a + r)) : SpriteOn u ox oy b k px py ↔ SpriteOn s ox oy a k px py := by
  refine exists_congr fun r => and_congr_right fun hr => ?_
  rw [h r hr]

theorem disp_eq_of_pixel (h : ∀ px py, t.pixel px py = s.pixel px py) : t.disp = s.disp :=
  Display.ext_get fun px hx py hy => h ⟨px, hx⟩ ⟨py, hy⟩

/-! ### What a draw does (R131) -/

/-- The pixels under the sprite that a draw in `s` draws. -/
abbrev DrawsOn (s : State) (x y : Reg) (n : BitVec 4) (px : Fin Config.W) (py : Fin Config.H) : Prop :=
  SpriteOn s (s.readV x).toNat (s.readV y).toNat s.i.toNat n.toNat px py

/-- The pixels and the collision flag of `t` are those of `s` after a draw that completes (44_display.md R131). -/
structure Drawn (x y : Reg) (n : BitVec 4) (s t : State) : Prop where
  inverted : ∀ px py, DrawsOn s x y n px py → t.pixel px py = !s.pixel px py
  kept : ∀ px py, ¬ DrawsOn s x y n px py → t.pixel px py = s.pixel px py
  collision : (∃ px py, DrawsOn s x y n px py ∧ s.pixel px py = true) → t.readV 15 = 1
  noCollision : (¬ ∃ px py, DrawsOn s x y n px py ∧ s.pixel px py = true) → t.readV 15 = 0

/-- `VF` holds the collision flag of the blit. -/
theorem State.drawSprite_readV_flag (rows : List Byte) : (s.drawSprite x y rows).readV 15 =
    flagByte (blitRows (s.readV x).toNat (s.readV y).toNat rows ⟨s.disp, false⟩).collision :=
  (State.readV_writeV _ _ _ _).trans (if_pos rfl)

/-- At most 15 rows fit the height of 32, so the law of the whole sprite applies. -/
theorem drawn_drawSprite : Drawn x y n s (s.drawSprite x y (s.bytesAtIndex n.toNat)).advance := by
  have hrows : (s.bytesAtIndex n.toNat).length ≤ Config.H := by
    simp only [State.length_bytesAtIndex, Config.H]
    omega
  obtain ⟨hinv, hkept, hcoll⟩ :=
    blitRows_spec (s.readV x).toNat (s.readV y).toNat (s.bytesAtIndex n.toNat) hrows ⟨s.disp, false⟩
  have hflag := s.drawSprite_readV_flag (x := x) (y := y) (s.bytesAtIndex n.toNat)
  generalize hc : (blitRows _ _ _ _).collision = c at hcoll hflag
  have hcoll' : c = true ↔ ∃ px py, DrawsOn s x y n px py ∧ s.pixel px py = true := by
    rw [hcoll]
    constructor
    · rintro (hoff | ⟨px, py, hhit, hon⟩)
      · cases hoff
      · exact ⟨_, _, spriteHits_iff_spriteOn.mp hhit, (Display.get_eq_pixel px py).symm.trans hon⟩
    · rintro ⟨px, py, hdraws, hon⟩
      exact .inr ⟨px, py, spriteHits_val_iff_spriteOn.mpr hdraws, hon⟩
  exact {
    inverted := fun px py h => hinv px py (spriteHits_val_iff_spriteOn.mpr h)
    kept := fun px py h => hkept px py (spriteHits_val_iff_spriteOn.not.mpr h)
    collision := fun h => hflag.trans (congrArg flagByte (hcoll'.mpr h))
    noCollision := fun h => hflag.trans (congrArg flagByte (Bool.eq_false_iff.mpr (hcoll'.not.mpr h))) }

theorem exec_drw_drawn (h : exec (.drw x y n) s = .next t) (ht : t.fault = none) : Drawn x y n s t := by
  obtain rfl := (exec_drw_next h).resolve_left (not_faulted_of_completed ht)
  exact drawn_drawSprite

/-- A pixel goes off exactly if it was on under the sprite. -/
theorem Drawn.turnedOff_iff (h : Drawn x y n s t) {px : Fin Config.W} {py : Fin Config.H} :
    s.pixel px py = true ∧ t.pixel px py = false ↔ DrawsOn s x y n px py ∧ s.pixel px py = true := by
  by_cases hon : DrawsOn s x y n px py
  · simp [h.inverted px py hon, hon]
  · simp [h.kept px py hon, hon]

/-- Two draws with the same pixels under the sprite cancel: each of these pixels is inverted twice. -/
theorem Drawn.disp_eq_of_twice {w : State} {x' y' : Reg} (hfirst : Drawn x y n s t) (hsecond : Drawn x' y' n u w)
    (hdisp : u.disp = t.disp) (hsame : ∀ px py, DrawsOn u x' y' n px py ↔ DrawsOn s x y n px py) : w.disp = s.disp := by
  have hpixel : ∀ px py, u.pixel px py = t.pixel px py := fun px py => congrArg (Display.get · px.val py.val) hdisp
  refine disp_eq_of_pixel fun px py => ?_
  by_cases hon : DrawsOn s x y n px py
  · rw [hsecond.inverted px py ((hsame px py).mpr hon), hpixel, hfirst.inverted px py hon, Bool.not_not]
  · rw [hsecond.kept px py ((hsame px py).not.mpr hon), hpixel, hfirst.kept px py hon]

end

/-! ### The statements of the family 44_display.md -/

/-- Settles O38: the draw of a sprite that lies in memory, or its fault. -/
theorem drawInvertsSpritePixels : Obligations.DrawInvertsSpritePixels := by
  intro s x y n
  refine ⟨encodes_of_encode (encode_drw x y n), fun hfits => ?drawn, fun hrows hcross => ?fault⟩
  case drawn =>
    have hexec := exec_drw_of_fits s x y n (hfits.imp_right fun h => by omega)
    have hdrawn : Drawn x y n s _ := drawn_drawSprite
    have hframe := exec_frame_of_pc_eq hexec rfl
    exact ⟨_, hexec, hdrawn.inverted, hdrawn.kept, hdrawn.collision, hdrawn.noCollision,
      fun _ hr => State.drawSprite_readV_of_ne hr, rfl, hframe, fun ha => stepResult_of_about hframe ha (displayChanged_of_about ha)⟩
  case fault => exact exec_drw_of_crosses s x y n hrows (by omega)

/-- Settles O39: the second draw has the same pixels under its sprite as the first. -/
theorem drawTwiceRestoresPixels : Obligations.DrawTwiceRestoresPixels := by
  intro s t u w x y x' y' n _ hfirst ht _ hdisp hx hy hbytes hsecond hw
  refine (exec_drw_drawn hfirst ht).disp_eq_of_twice (exec_drw_drawn hsecond hw) hdisp fun px py => ?_
  rw [DrawsOn, hx, hy]
  exact spriteOn_congr hbytes

/-- Settles O40: the pixels that go off are those that were on under the sprite, which the flag reports. -/
theorem collisionIffPixelTurnedOff : Obligations.CollisionIffPixelTurnedOff := by
  intro s t x y n _ hexec ht
  have hdrawn := exec_drw_drawn hexec ht
  simp only [hdrawn.turnedOff_iff]
  exact ⟨hdrawn.collision, hdrawn.noCollision⟩

/-- Settles O41: column 1 of row 0 lands on column `W mod W` of row 0. -/
theorem spriteWrapsToColumnZero : Obligations.SpriteWrapsToColumnZero := by
  intro s t x y n _ hx hy hn hbit hexec ht
  have hrow : 0 < n.toNat := Nat.pos_of_ne_zero fun h => hn (BitVec.eq_of_toNat_eq h)
  have hon : DrawsOn s x y n 0 0 := by
    rw [DrawsOn, hx, hy]
    exact ⟨0, hrow, 1, by decide, by decide, by decide, hbit⟩
  exact (exec_drw_drawn hexec ht).inverted 0 0 hon

/-- Settles O37: the blank display, with `VF` in the frame. -/
theorem clearScreen : Obligations.ClearScreen := by
  intro s
  have hexec : exec .cls s = .next (State.advance { s with disp := Display.blank }) := rfl
  have hframe := exec_frame_of_pc_eq hexec rfl
  exact ⟨encodes_of_encode rfl, _, hexec, fun px py => Display.get_blank px.val py.val, rfl, hframe,
    fun ha => stepResult_of_about hframe ha (displayChanged_of_about ha)⟩

end Sys2Proof.Machine

/-! ## Keys and timers (45_keys_timers.md)

A key skip is `skipIf` on one key, or the fault of its index. read-key leaves a suspended engine, which `handle_step_of_suspended` says
a `STEP` does not change. The three transfers are one write each. -/

namespace Sys2Proof.Machine

theorem zextByte_eq_ofNat (b : Byte) : zextByte b = BitVec.ofNat 16 b.toNat := (BitVec.ofNat_toNat 16 b).symm

section
variable {s t : State}

/-! ### What a `STEP` returns to the host (00_scope.md R3) -/

theorem eventResult_of_stepWith {rnd : Byte} (h : stepWith rnd s = .next t) :
    eventResult (.step rnd) s = some (stepResult s t) := by
  simp only [eventResult, h]

/-- While the engine is suspended, a `STEP` changes nothing and returns `Ok(false)` (40_step_cycle.md R80 step 2). -/
theorem handle_step_of_suspended {r : Reg} (hf : s.fault = none) (ha : s.SuspendedOn r) (rnd : Byte) :
    handle (.step rnd) s = .next s ∧ eventResult (.step rnd) s = some (.ok false) := by
  obtain ⟨-, hsuspended, -⟩ := stepChecksInOrder s rnd
  obtain ⟨hstays, -, hresult⟩ := hsuspended r hf ha
  exact ⟨hstays, (eventResult_of_stepWith hstays).trans (congrArg some hresult)⟩

/-! ### The sound observation (60_exceptions.md R161) -/

theorem soundActive_iff : s.soundActive = true ↔ s.st ≠ 0 :=
  decide_eq_true_iff.trans (Nat.pos_iff_ne_zero.trans (BitVec.toNat_inj (y := 0)).not)

end

/-! ### The statements of the family 45_keys_timers.md -/

/-- Settles O42: an index that names a key leaves the test of its level, and a larger one the fault. -/
theorem keySkips : Obligations.KeySkips := by
  intro s x
  refine ⟨encodes_of_encode (wordX_eq_ofNat rfl x), encodes_of_encode (wordX_eq_ofNat rfl x), fun k hk => ?skips, fun hbad => ?fault⟩
  case skips =>
    have hup : (s.key[k.val] == false) = true ↔ ¬ s.key[k.val] = true := by simp
    exact ⟨⟨_, exec_skp_of_key s x k hk, State.skipIf_pc_of_iff beq_iff_eq, State.goto_frame _⟩,
      _, exec_sknp_of_key s x k hk, State.skipIf_pc_of_iff_not hup, State.goto_frame _⟩
  case fault =>
    rw [← zextByte_eq_ofNat]
    rintro i (rfl | rfl)
    · exact exec_skp_of_bad s x hbad
    · exact exec_sknp_of_bad s x hbad

/-- Settles O43: read-key completes with no look at the keys, so with no fault latched the steps after it find a suspension. -/
theorem readKeySuspends : Obligations.ReadKeySuspends := by
  intro s x
  have hexec : exec (.ldVxK x) s = .next (State.advance { s with await := .waiting x }) := rfl
  exact ⟨encodes_of_encode (wordX_eq_ofNat rfl x), _, hexec, rfl, rfl, exec_frame_of_pc_eq hexec rfl,
    fun hf => handle_step_of_suspended hf rfl⟩

/-- Settles O44: a register write, and two timer writes. -/
theorem timerTransfers : Obligations.TimerTransfers := by
  intro s x
  have hdelay : exec (.ldDTVx x) s = .next (State.advance { s with dt := s.readV x }) := rfl
  have hsound : exec (.ldSTVx x) s = .next (State.advance { s with st := s.readV x }) := rfl
  exact ⟨⟨encodes_of_encode (wordX_eq_ofNat rfl x), s.setV_completes x s.dt⟩,
    ⟨encodes_of_encode (wordX_eq_ofNat rfl x), _, hdelay, rfl, rfl, exec_frame_of_pc_eq hdelay rfl⟩,
    encodes_of_encode (wordX_eq_ofNat rfl x), _, hsound, rfl, rfl, exec_frame_of_pc_eq hsound rfl, soundActive_iff⟩

end Sys2Proof.Machine

/-! ## Faults and the host's events (60_exceptions.md)

Which faults an instruction raises is told once, by `exec_fault_iff`; that a `STEP` which latches one does nothing else is `Faulted`, read
off `cycle_next`. The other events are one update of the state each, and `handleAll_keeps` carries what each event keeps over a list. -/

namespace Sys2Proof.Machine

section
variable {s t : State} {f : FaultRecord}

/-! ### A `STEP` that latches a fault (R151) -/

theorem Faulted.pc_eq (h : Faulted s t) (ht : t.fault = some f) : f.pc = s.pc := by
  obtain ⟨g, -, hpc, rfl⟩ := h
  cases ht
  exact hpc

/-- When an execution faults or changes only its own pieces, so does the `STEP` around it: a fault it latched is all it did. -/
theorem cycle_faulted {execute : Instr → State → Result}
    (hex : ∀ {i}, execute i s = .next t → Faulted s t ∨ Frame (piecesWritten i) s t)
    (hs : s.fault = none) (h : cycle execute s = .next t) (ht : t.fault = some f) : Faulted s t := by
  rcases cycle_next h with ⟨-, rfl⟩ | ⟨-, hf⟩ | ⟨i, -, hi⟩
  · cases hs.symm.trans ht
  · exact hf
  · refine (hex hi).resolve_right fun hframe => ?_
    cases ht.symm.trans ((hframe.fault fault_not_mem_piecesWritten).trans hs)

/-! ### When an instruction raises a fault, and which one (R150) -/

theorem State.raise_fault_iff {c : FaultCode} {info : Word} (h : s.raise c info = .next t) :
    t.fault = some f ↔ f = ⟨c, info, s.pc⟩ := by
  cases h
  exact Option.some_inj.trans eq_comm

/-- An answer that raises when `p` holds, and otherwise leaves a clear latch clear. -/
theorem fault_iff_of_raises_when {p : Prop} {c : FaultCode} {info : Word} {answer : Result} (hs : s.fault = none)
    (hraise : p → answer = s.raise c info) (hdone : ¬ p → ∃ u, answer = .next u ∧ u.fault = s.fault)
    (h : answer = .next t) : t.fault = some f ↔ p ∧ f = ⟨c, info, s.pc⟩ := by
  by_cases hp : p
  · rw [State.raise_fault_iff ((hraise hp).symm.trans h), and_iff_right hp]
  · obtain ⟨u, hu, hlatch⟩ := hdone hp
    cases hu.symm.trans h
    simp [hlatch, hs, hp]

theorem State.storeAtIndex_fault_iff {bs : List Byte} (hs : s.fault = none) (hb : bs ≠ []) (h : s.storeAtIndex bs = .next t) :
    t.fault = some f ↔ 0xFFF < s.i.toNat + bs.length - 1 ∧ f = ⟨.addressFault, lowestOffending s.i, s.pc⟩ := by
  refine fault_iff_of_raises_when hs (fun hp => s.storeAtIndex_error bs hb (by omega)) (fun hp => ?_) h
  obtain ⟨m, hstore, -⟩ := s.storeAtIndex_ok bs (by omega)
  exact ⟨_, hstore, rfl⟩

theorem State.skipOnKey_fault_iff {x : Reg} {w : Bool} (hs : s.fault = none) (h : s.skipOnKey x w = .next t) :
    t.fault = some f ↔ 15 < (s.readV x).toNat ∧ f = ⟨.keyIndexFault, zextByte (s.readV x), s.pc⟩ := by
  refine fault_iff_of_raises_when hs (fun hp => ?_) (fun hp => ?_) h
  · rcases s.skipOnKey_cases x w with ⟨k, hk, -⟩ | ⟨-, hr⟩
    · omega
    · exact hr
  · rcases s.skipOnKey_cases x w with ⟨k, -, hr⟩ | ⟨hbad, -⟩
    · exact ⟨_, hr, rfl⟩
    · exact absurd hbad hp

/-- `i` raises `f` in `s`: the causes of R150 that lie in an instruction and not in its fetch or decoding. -/
def Raises (i : Instr) (s : State) (f : FaultRecord) : Prop :=
  (∃ nnn, i = .call nnn ∧ s.sp.val = 16 ∧ f = ⟨.stackOverflow, encode i, s.pc⟩) ∨
  (i = .ret ∧ s.sp.val = 0 ∧ f = ⟨.stackUnderflow, encode i, s.pc⟩) ∨
  (∃ x, (i = .skp x ∨ i = .sknp x) ∧ 15 < (s.readV x).toNat ∧ f = ⟨.keyIndexFault, zextByte (s.readV x), s.pc⟩) ∨
  (bytesAtI i ≠ 0 ∧ 0xFFF < s.i.toNat + bytesAtI i - 1 ∧ f = ⟨.addressFault, lowestOffending s.i, s.pc⟩)

/-- An instruction ends with a fault latched exactly when it raises it. -/
theorem exec_fault_iff {i : Instr} (hs : s.fault = none) (h : exec i s = .next t) : t.fault = some f ↔ Raises i s f := by
  cases i with
  | ret =>
    rw [fault_iff_of_raises_when hs (exec_ret_of_empty s) (fun hp => ⟨_, exec_ret_of_pos s (Nat.pos_of_ne_zero hp), rfl⟩) h]
    simp [Raises, bytesAtI]
  | call nnn =>
    rw [fault_iff_of_raises_when hs (exec_call_of_full s nnn) (fun hp => ⟨_, exec_call_of_room s nnn (by omega), rfl⟩) h]
    simp [Raises, bytesAtI]
  | skp x | sknp x =>
    rw [State.skipOnKey_fault_iff hs h]
    simp [Raises, bytesAtI]
  | ldB x =>
    rw [State.storeAtIndex_fault_iff hs (by simp [bcdDigits]) h]
    simp [Raises, bytesAtI, bcdDigits]
  | dump x =>
    have hlen := s.length_regsUpTo x
    rw [State.storeAtIndex_fault_iff hs (List.ne_nil_of_length_eq_add_one hlen) h, hlen]
    simp [Raises, bytesAtI]
  | load x =>
    rw [fault_iff_of_raises_when hs (exec_load_of_crosses s x) (fun hp => ⟨_, exec_load_of_fits s x (by omega), rfl⟩) h]
    simp [Raises, bytesAtI]
  | drw x y n =>
    have hzero : n = 0 ↔ n.toNat = 0 := (BitVec.toNat_inj (y := 0)).symm
    rw [fault_iff_of_raises_when (p := n.toNat ≠ 0 ∧ 0xFFF < s.i.toNat + n.toNat - 1) hs
      (fun ⟨hrows, hp⟩ => exec_drw_of_crosses s x y n (hzero.not.mpr hrows) (by omega))
      (fun hp => ⟨_, exec_drw_of_fits s x y n (by rw [hzero]; omega), rfl⟩) h]
    simp [Raises, bytesAtI, and_assoc]
  | _ =>
    cases h
    simp [Raises, bytesAtI, hs]

/-- The record of a key-index fault, `info` as a number. -/
theorem FaultRecord.eq_keyIndexFault_iff {b : Byte} {pc : Word} :
    f = ⟨.keyIndexFault, zextByte b, pc⟩ ↔ f.code = .keyIndexFault ∧ f.info.toNat = b.toNat ∧ f.pc = pc := by
  rw [← zextByte_toNat, BitVec.toNat_inj]
  cases f
  simp only [FaultRecord.mk.injEq]

/-- A `STEP` that gets as far as an instruction ends with a fault latched exactly when that instruction raises it. -/
theorem step_fault_iff {i : Instr} (ha : s.About i) (h : step s = .next t) : t.fault = some f ↔ Raises i s f :=
  exec_fault_iff ha.1.1 ((cycle_of_about exec ha).symm.trans h)

/-! ### Every event answers a state (R151, R163) -/

theorem completes_of_ends {answer : Result}
    (h : (∃ c info, answer = s.raise c info) ∨ ∃ t, answer = .next t ∧ t.fault = s.fault) : ∃ t, answer = .next t := by
  rcases h with ⟨c, info, h⟩ | ⟨t, h, -⟩
  · exact ⟨_, h⟩
  · exact ⟨t, h⟩

/-- A `STEP` answers a state when the instruction it is about does. -/
theorem cycle_completes {execute : Instr → State → Result} (hex : ∀ i s, ∃ t, execute i s = .next t) (s : State) :
    ∃ t, cycle execute s = .next t := by
  rcases cycle_cases execute s with ⟨-, hc⟩ | ⟨-, -, ⟨-, hc⟩ | ⟨-, op, -, ⟨e, -, hc⟩ | ⟨i, -, hc⟩⟩⟩
  · exact ⟨s, hc⟩
  · exact ⟨_, hc⟩
  · exact ⟨_, hc⟩
  · exact hc ▸ hex i s

/-- Events that each answer a state and keep `P` do so one after another. -/
theorem handleAll_keeps {P : State → Prop} {es : List Event} (hkeep : ∀ e ∈ es, ∀ s, P s → ∃ t, handle e s = .next t ∧ P t)
    (hs : P s) : ∃ t, handleAll es s = .next t ∧ P t := by
  induction es generalizing s with
  | nil => exact ⟨s, rfl, hs⟩
  | cons e es ih =>
    obtain ⟨u, hu, hPu⟩ := hkeep e (by simp) s hs
    simp only [handleAll, hu]
    exact ih (fun e' he' => hkeep e' (by simp [he'])) hPu

/-! ### `TICK`, `KEYDOWN`, `KEYUP` (R156, R158, R159) -/

theorem Frame.refl (l : List Piece) (s : State) : Frame l s s := by
  constructor <;> simp

theorem Frame.trans {l : List Piece} {u : State} (h : Frame l s t) (h' : Frame l t u) : Frame l s u where
  v hn r := (h'.v hn r).trans (h.v hn r)
  i hn := (h'.i hn).trans (h.i hn)
  pc hn := (h'.pc hn).trans (h.pc hn)
  sp hn := (h'.sp hn).trans (h.sp hn)
  stack hn := (h'.stack hn).trans (h.stack hn)
  dt hn := (h'.dt hn).trans (h.dt hn)
  st hn := (h'.st hn).trans (h.st hn)
  mem hn a := (h'.mem hn a).trans (h.mem hn a)
  disp hn := (h'.disp hn).trans (h.disp hn)
  key hn := (h'.key hn).trans (h.key hn)
  await hn := (h'.await hn).trans (h.await hn)
  fault hn := (h'.fault hn).trans (h.fault hn)
  rndDraws hn := (h'.rndDraws hn).trans (h.rndDraws hn)

theorem countDown_toNat (b : Byte) : (countDown b).toNat = b.toNat - 1 := by
  unfold countDown
  split <;> bv_omega

theorem tick_frame (s : State) : Frame [.dt, .st] s (tick s) := by
  constructor <;> simp [tick, State.byteAt, State.readV]

theorem keyup_frame (k : KeyIdx) (s : State) : Frame [.key] s (keyup k s) := by
  constructor <;> simp [keyup, State.byteAt, State.readV]

theorem key_set_getElem (key : Vector Bool 16) (k j : KeyIdx) (b : Bool) :
    (key.set k.val b)[j.val] = if j = k then b else key[j.val] := by
  simp only [Vector.getElem_set, Fin.ext_iff, eq_comm]

theorem keydown_of_notWaiting (k : KeyIdx) (ha : s.await = .notWaiting) :
    keydown k s = { s with key := s.key.set k.val true } := by
  simp only [keydown, ha]

theorem keydown_of_waiting (k : KeyIdx) {r : Reg} (ha : s.await = .waiting r) :
    keydown k s = { s.writeV r (BitVec.ofNat 8 k.val) with key := s.key.set k.val true, await := .notWaiting } := by
  simp only [keydown, ha]
  rfl

theorem keydown_key (k : KeyIdx) (s : State) : (keydown k s).key = s.key.set k.val true := by
  unfold keydown
  split <;> rfl

theorem keydown_frame (k : KeyIdx) (s : State) : Frame [.v, .key, .await] s (keydown k s) := by
  cases ha : s.await with
  | notWaiting => rw [keydown_of_notWaiting k ha]; constructor <;> simp [State.byteAt]
  | waiting r => rw [keydown_of_waiting k ha]; constructor <;> simp [State.byteAt]

theorem keydown_readV_of_waiting (k : KeyIdx) {r : Reg} (ha : s.await = .waiting r) (q : Reg) :
    (keydown k s).readV q = if q = r then BitVec.ofNat 8 k.val else s.readV q := by
  rw [keydown_of_waiting k ha]
  exact s.readV_writeV r q _

theorem keydown_readV_of_notWaiting (k : KeyIdx) (ha : s.await = .notWaiting) (q : Reg) : (keydown k s).readV q = s.readV q := by
  rw [keydown_of_notWaiting k ha]
  rfl

/-- No event but `RESET` clears or overwrites a latched fault (R152). -/
theorem handle_of_halted {e : Event} (hf : s.fault = some f) (he : ∀ image, e ≠ .reset image) :
    ∃ t, handle e s = .next t ∧ t.fault = some f := by
  cases e with
  | reset image => exact absurd rfl (he image)
  | step rnd => exact ⟨s, cycle_of_fault _ hf, hf⟩
  | tick => exact ⟨_, rfl, hf⟩
  | keydown k => exact ⟨_, rfl, (keydown_fault k).trans hf⟩
  | keyup k => exact ⟨_, rfl, hf⟩

/-- While the engine is suspended, `STEP`, `TICK` and `KEYUP` change the timers and the keys and nothing else (R162). -/
theorem handle_frame_of_suspended {e : Event} {r : Reg} (hf : s.fault = none) (ha : s.await = .waiting r)
    (he : e = .tick ∨ (∃ rnd, e = .step rnd) ∨ ∃ k, e = .keyup k) :
    ∃ t, handle e s = .next t ∧ Frame [.dt, .st, .key] s t := by
  rcases he with rfl | ⟨rnd, rfl⟩ | ⟨k, rfl⟩
  · exact ⟨_, rfl, (tick_frame s).mono (by simp)⟩
  · obtain ⟨hstays, -⟩ := handle_step_of_suspended hf ha rnd
    exact ⟨s, hstays, Frame.refl _ s⟩
  · exact ⟨_, rfl, (keyup_frame k s).mono (by simp)⟩

end

/-! ### The statements of the family 60_exceptions.md -/

/-- Settles O10: whichever way the `STEP` executes, what latched a fault changed nothing else. -/
theorem faultsArePrecise : Obligations.FaultsArePrecise := by
  intro s t f hs h ht
  have hfaulted : Faulted s t := by
    rcases h with h | ⟨rnd, h⟩
    · exact cycle_faulted exec_frame hs h ht
    · exact cycle_faulted execWith_frame hs h ht
  exact ⟨hfaulted.eq_latched ht, hfaulted.pc_eq ht, stepResult_eq_fault_iff.mpr ht⟩

/-- Settles O11, check by check: the fetch, the decoding, and the instruction, whose faults are those it raises. -/
theorem faultCauses : Obligations.FaultCauses := by
  refine ⟨⟨rfl, rfl, rfl, rfl, rfl⟩, ?_⟩
  intro s t f hr h op
  by_cases hpc : s.pc.toNat ≤ 0xFFE
  · have hlow : ¬ 0xFFF ≤ s.pc.toNat := by omega
    cases hd : decode op with
    | error e =>
      have hw := wellFormedWord_eq_false_of_decode_error hd
      rw [State.raise_fault_iff ((cycle_of_illegal exec hr hpc hw).symm.trans h)]
      simp [hpc, hlow, eq_unknown_of_decode_error hd, op]
    | ok i =>
      rw [step_fault_iff ⟨hr, hpc, hd⟩ h]
      simp [Raises, hpc, hlow, encode_of_decode hd, FaultRecord.eq_keyIndexFault_iff]
  · have hhigh : 0xFFF ≤ s.pc.toNat := by omega
    rw [State.raise_fault_iff ((cycle_of_high_pc exec hr hhigh).symm.trans h)]
    simp [hpc, hhigh]

/-- Settles O12: only `RESET` touches the latch of a halted engine, and the state it loads has none. -/
theorem haltedUntilReset : Obligations.HaltedUntilReset := by
  intro s f hf
  refine ⟨fun rnd => ?reports, fun e he => handle_of_halted hf he, fun image t h => ?cleared⟩
  case reports =>
    have hstays : stepWith rnd s = .next s := cycle_of_fault _ hf
    exact ⟨hstays, (eventResult_of_stepWith hstays).trans (congrArg some (stepResult_eq_fault_iff.mpr hf))⟩
  case cleared =>
    obtain ⟨-, rfl⟩ := resetWith_next h
    rfl

/-- Settles O14: every instruction answers a state, so every `STEP` does, and the other events are total but for `RESET`. -/
theorem everyEventAnswersNext : Obligations.EveryEventAnswersNext := by
  refine fun s => ⟨cycle_completes (fun i s => completes_of_ends (exec_ends s i)) s, fun e he => ?_,
    fun image hlen => ⟨_, resetWith_of_fits hlen s⟩⟩
  cases e with
  | reset image => exact absurd rfl (he image)
  | step rnd => exact cycle_completes (fun i s => completes_of_ends (execWith_ends s rnd i)) s
  | tick | keydown k | keyup k => exact ⟨_, rfl⟩

/-- Settles O45: `countDown` is subtraction floored at 0. -/
theorem tickCountsDown : Obligations.TickCountsDown :=
  fun s => ⟨_, rfl, countDown_toNat s.dt, countDown_toNat s.st, tick_frame s⟩

/-- Settles O46, by induction on the number of ticks. -/
theorem timerAfterManyTicks : Obligations.TimerAfterManyTicks := by
  intro s k
  induction k generalizing s with
  | zero => exact ⟨s, rfl, rfl, rfl, Frame.refl _ s⟩
  | succ k ih =>
    obtain ⟨u, htick, hdt, hst, hframe⟩ := tickCountsDown s
    obtain ⟨t, hticks, hdt', hst', hframe'⟩ := ih u
    refine ⟨t, ?_, by omega, by omega, hframe.trans hframe'⟩
    simp only [List.replicate_succ, handleAll, htick, hticks]

/-- Settles O47, with and without a suspension to resolve. -/
theorem keydownResolvesSuspension : Obligations.KeydownResolvesSuspension := by
  refine fun s k => ⟨_, rfl, fun j => ?key, keydown_await k, fun r ha => ⟨?target, fun q hq => ?others⟩,
    fun ha => keydown_readV_of_notWaiting k ha, keydown_frame k s⟩
  case key =>
    simp only [keydown_key]
    exact key_set_getElem s.key k j true
  case target =>
    rw [keydown_readV_of_waiting k ha, if_pos rfl, BitVec.toNat_ofNat]
    omega
  case others => rw [keydown_readV_of_waiting k ha, if_neg hq]

/-- Settles O48: one key written. -/
theorem keyupClearsKey : Obligations.KeyupClearsKey :=
  fun s k => ⟨_, rfl, fun j => key_set_getElem s.key k j false, keyup_frame k s⟩

/-- Settles O49: the frame keeps both latches, so the engine stays suspended through the whole list. -/
theorem suspendedUntilKeydown : Obligations.SuspendedUntilKeydown := by
  intro es s r hf ha hes
  have still {t : State} (h : Frame [.dt, .st, .key] s t) : t.fault = none ∧ t.await = .waiting r :=
    ⟨(h.fault (by decide)).trans hf, (h.await (by decide)).trans ha⟩
  have keep : ∀ e ∈ es, ∀ u, Frame [.dt, .st, .key] s u → ∃ w, handle e u = .next w ∧ Frame [.dt, .st, .key] s w := by
    intro e he u hu
    obtain ⟨hfu, hau⟩ := still hu
    obtain ⟨w, hw, hstep⟩ := handle_frame_of_suspended hfu hau (hes e he)
    exact ⟨w, hw, hu.trans hstep⟩
  obtain ⟨t, ht, hframe⟩ := handleAll_keeps keep (Frame.refl _ s)
  obtain ⟨hft, hat⟩ := still hframe
  exact ⟨t, ht, hframe, fun rnd => (handle_step_of_suspended hft hat rnd).2⟩

end Sys2Proof.Machine

/-! ## Stopped at `a` (70_reset_and_hazards.md section 5)

A `JP a` at `a` sets `pc` to the value it holds, so a `STEP` returns the state it was given; the other events leave `pc`, memory and the
fault latch alone, and none of them suspends the engine. -/

namespace Sys2Proof.Machine

section
variable {s t : State} {a : BitVec 12}

/-- A stopped engine executes the jump to its own address. -/
theorem State.StoppedAt.about (h : s.StoppedAt a) : s.About (.jp a) := by
  obtain ⟨hready, hpc, hroom, hword⟩ := h
  have haddr : s.pc.toNat = a.toNat := by rw [hpc, zextAddr_toNat]
  refine ⟨hready, haddr ▸ hroom, ?_⟩
  rw [haddr, hword]
  exact decode_encode (.jp a)

/-- The jump of a stopped engine goes where `pc` stands (R91). -/
theorem State.StoppedAt.goto_self (h : s.StoppedAt a) : s.goto (zextAddr a) = s := by
  obtain ⟨-, hpc, -⟩ := h
  rw [← hpc]
  rfl

/-- A `STEP` keeps a stopped engine as it is, with the host's random byte or without. -/
theorem State.StoppedAt.cycle_eq {execute : Instr → State → Result} (h : s.StoppedAt a)
    (hjump : execute (.jp a) s = .next (s.goto (zextAddr a))) : cycle execute s = .next s := by
  rw [cycle_of_about execute h.about, hjump, h.goto_self]

/-- What changes neither `pc`, memory nor the fault latch and leaves no suspension keeps the engine stopped. -/
theorem State.StoppedAt.of_frame (h : s.StoppedAt a) (hframe : Frame [.v, .dt, .st, .key, .await] s t)
    (hawait : t.await = .notWaiting) : t.StoppedAt a := by
  obtain ⟨⟨hfault, -⟩, hpc, hroom, hword⟩ := h
  refine ⟨⟨(hframe.fault (by decide)).trans hfault, hawait⟩, (hframe.pc (by decide)).trans hpc, hroom, ?_⟩
  rw [State.wordAt, hframe.mem (by decide), hframe.mem (by decide)]
  exact hword

/-- Every event but `RESET` leaves a stopped engine stopped (R189). -/
theorem State.StoppedAt.of_handle {e : Event} (h : s.StoppedAt a) (he : ∀ image, e ≠ .reset image)
    (ht : handle e s = .next t) : t.StoppedAt a := by
  obtain ⟨⟨-, hawait⟩, -⟩ := h.about
  cases e with
  | reset image => exact absurd rfl (he image)
  | step rnd =>
    cases (h.cycle_eq (execute := execWith rnd) rfl).symm.trans ht
    exact h
  | tick => cases ht; exact h.of_frame ((tick_frame s).mono (by simp)) hawait
  | keydown k => cases ht; exact h.of_frame ((keydown_frame k s).mono (by simp)) (keydown_await k)
  | keyup k => cases ht; exact h.of_frame ((keyup_frame k s).mono (by simp)) hawait

end

/-! ### The statement of the family 70_reset_and_hazards.md -/

/-- Settles O54: the `STEP` is a jump to where `pc` stands, no draw, and `State.StoppedAt.of_handle` is the clause about the events. -/
theorem stoppedIsFixedPoint : Obligations.StoppedIsFixedPoint :=
  fun s _ h => ⟨h.cycle_eq rfl, stepResult_of_about (Frame.refl _ s) h.about (displayChanged_of_about h.about),
    fun _ _ he ht => h.of_handle he ht⟩

end Sys2Proof.Machine
